-- ==== Sys2Proof/Word.lean ====
section
/-! DEFINITION. The word types of the block (00_scope.md R6): every value is an unsigned bit vector of its stated width. -/

namespace Sys2Proof

/-- `u8`: a byte of the stream, a sample (R6, R40). -/
abbrev Byte := BitVec 8

/-- `u16`: every 16-bit register and field (R6). -/
abbrev Word := BitVec 16

/-- `u3`: a set of error flags (R16), or one bit per channel (R20). -/
abbrev Bits3 := BitVec 3

/-- `u1`: a bank number of the sample memory (R24, R40). -/
abbrev Bank := BitVec 1

end Sys2Proof
end

