-- ==== Sys2Proof/Config.lean ====
section
/-! DEFINITION. The parameters of 00_scope.md R5: the document's literals as named constants, the decided values, the
OPEN parameters (`Params`, held in State) and the uninterpreted output function `Config.scale`. -/

namespace Sys2Proof

/-- The OPEN parameters of R5 that an instance of the block fixes. They stand in State, no step changes them, and every
claim holds for every value of them (log 14). -/
structure Params where
  /-- `CAP - 1`: the type keeps the constraint `1 <= CAP <= 65535` of R5 and decision D6. -/
  capPred : Fin 65535
  /-- `RESET_FREQUENCY` (R5, R22): any u16. -/
  resetFrequency : Word
  deriving DecidableEq, Repr

/-- `CAP`: capacity in bytes of one channel buffer of one bank (R5). -/
def Params.cap (p : Params) : Nat := p.capPred.val + 1

namespace Config

/-- `TYPE_PATTERN` (R5, R62). -/
def typePattern : Byte := 0x01#8

/-- `TYPE_FREQUENCY` (R5, R62). -/
def typeFrequency : Byte := 0x02#8

/-- `TYPE_AMPLITUDE` (R5, R62). -/
def typeAmplitude : Byte := 0x03#8

/-- `DELIM` (R5, R66). -/
def delim : Byte := 0x55#8

/-- `RESET_AMPLITUDE` (R5, R171). -/
def resetAmplitude : Word := 0#16

/-- `RESET_COUNT` (R5, R171): the number of samples per channel that reset leaves. -/
def resetCount : Nat := 1

/-- `RESET_SAMPLE` (R5, R171). -/
def resetSample : Byte := 0x00#8

/-- `Scale` (R5, R141): an uninterpreted function of the amplitude and the sample. The spec gives no output width, so an
output word is a natural number (DESIGN CHOICE, log 10). Nothing else is assumed of it. -/
opaque scale : Word → Byte → Nat

/-- The parameters of the instance that `State.reset` stands for (DESIGN CHOICE, logs 8 and 9): no statement rests on
these two values. -/
def params : Params := { capPred := 65534, resetFrequency := 0#16 }

end Config

end Sys2Proof
end

