-- ==== Sys2Proof/Syntax.lean ====
section
/-! DEFINITION. The syntax: the names the decoder position is made of, the one inductive `Instr` (one constructor per
mnemonic of spec/opcode_table.json), the whole messages of 30_encoding.md, and the events the environment offers. -/

namespace Sys2Proof

/-- `message_kind` (R11). -/
inductive MessageKind
  | none
  | pattern
  | frequency
  | amplitude
  deriving DecidableEq, Repr

/-- `field_kind` (R12). -/
inductive FieldKind
  | none
  | length
  | data
  | delimiter
  deriving DecidableEq, Repr

/-- The three channels (R5 `NCH`, R40). -/
inductive Channel
  | a
  | b
  | c
  deriving DecidableEq, Repr

/-- `active_channel` (R13): `All`, which names no buffer, or one channel. -/
inductive ActiveChannel
  | all
  | one (ch : Channel)
  deriving DecidableEq, Repr

/-- The bytes of format S (R63): the type byte at offset 0, a payload byte at offset 1 or 2. -/
inductive ShortByte
  | typeByte
  | payload (b : Byte)
  deriving DecidableEq, Repr

/-- The bytes of format P (R64): the type byte, a length byte, a sample byte, a byte at a delimiter position. Only the
length step reads the draw `deny` (R100, R103). -/
inductive PatByte
  | typeByte
  | length (b : Byte) (deny : Bits3)
  | data (b : Byte)
  | delimiter (b : Byte)
  deriving DecidableEq, Repr

/-- One indivisible step of an operation of the opcode table (R52, R74). A message is never one step (R59, R117), so the
operand of a message's constructor is the byte that this step consumes (DEDUCED, log 1). -/
inductive Instr
  /-- `PAT`, type byte `0x01` (R64, R114). -/
  | pat (p : PatByte)
  /-- `FREQ`, type byte `0x02` (R63, R92). -/
  | freq (p : ShortByte)
  /-- `AMP`, type byte `0x03` (R63, R93). -/
  | amp (p : ShortByte)
  /-- `UNK`, any other first byte (R65, R89). -/
  | unk (t : Byte)
  /-- `TICK`, an event (R139). -/
  | tick
  /-- `RESET`, an event (R170). -/
  | reset
  deriving DecidableEq, Repr

/-- A whole message of the byte stream (R61 to R65, R69). A pattern message ends with its third good delimiter, or early
at the first wrong byte `d` at a delimiter position. -/
inductive Message
  | freq (v : Word)
  | amp (v : Word)
  | unk (t : Byte)
  | pat (a b c : List Byte)
  /-- wrong byte after A: the length of `a` is `len` -/
  | patBadA (a : List Byte) (d : Byte)
  /-- wrong byte after B -/
  | patBadB (a b : List Byte) (d : Byte)
  /-- wrong byte after C -/
  | patBadC (a b c : List Byte) (d : Byte)
  deriving DecidableEq, Repr

/-- What the environment offers at one instant (R31, R52). The order of a list of events is the order of the steps; a
byte and a tick that coincide are two events in either order (R52). -/
inductive Event
  /-- a byte of the stream with the draw `alloc_deny` of its step (R5, R103) -/
  | byte (b : Byte) (deny : Bits3)
  /-- a tick of the sample clock (R138) -/
  | tick
  /-- a reset, with the byte and the tick that coincide with it and are lost (R173) -/
  | reset (lostByte : Option Byte) (lostTick : Bool)
  deriving DecidableEq, Repr

end Sys2Proof
end

