-- ==== Sys2Proof/WellFormed.lean ====
section
/-! DEFINITION. The checks on syntax: which instructions and messages are well formed. -/

namespace Sys2Proof

/-- The byte is none of the three assigned type bytes (R62, R72). -/
def isUnassignedType (t : Byte) : Bool :=
  t != Config.typePattern && t != Config.typeFrequency && t != Config.typeAmplitude

/-- An `UNK` holds an unassigned type byte (R65); every other operand is unconstrained (R63, R68). -/
def Instr.wellFormed : Instr → Bool
  | .unk t => isUnassignedType t
  | .pat _ => true
  | .freq _ => true
  | .amp _ => true
  | .tick => true
  | .reset => true

/-- A length that the 16-bit field can hold (R64). -/
def fitsLength (xs : List Byte) : Bool := decide (xs.length < 65536)

/-- Format P gives the three channels the same number of bytes and a wrong delimiter differs from `DELIM` (R64, R66,
R69); the length 0 is a form too (R69). Format S has no constraint (R63). -/
def Message.wellFormed : Message → Bool
  | .freq _ => true
  | .amp _ => true
  | .unk t => isUnassignedType t
  | .pat a b c => fitsLength a && b.length == a.length && c.length == a.length
  | .patBadA a d => fitsLength a && d != Config.delim
  | .patBadB a b d => fitsLength a && b.length == a.length && d != Config.delim
  | .patBadC a b c d => fitsLength a && b.length == a.length && c.length == a.length && d != Config.delim

end Sys2Proof
end

