-- ==== Sys2Proof/Decode.lean ====
section
/-! DEFINITION. Reading and writing the byte stream: the type-byte table (30_encoding.md R62, R74), the decoder from a
position and bytes to an instruction, the encoder of an instruction, and the encoder and parser of whole messages. -/

namespace Sys2Proof

/-! ### Byte order (R6, R47) -/

/-- Byte 0 of a `u16`: `v[7:0]` (R6). -/
def loByte (v : Word) : Byte := v.extractLsb' 0 8

/-- Byte 1 of a `u16`: `v[15:8]` (R6). -/
def hiByte (v : Word) : Byte := v.extractLsb' 8 8

/-- `{hi, lo}`: the concatenation with `hi` more significant (R6). -/
def joinBytes (hi lo : Byte) : Word := hi ++ lo

/-! ### The type-byte table -/

/-- The mnemonics that a type byte selects (R62). -/
inductive TypeMnemonic
  | pat
  | freq
  | amp
  | unk
  deriving DecidableEq, Repr

/-- One row of spec/opcode_table.json: a type byte `t` selects it when `t & mask == pattern` (R74). -/
structure OpRow where
  mnemonic : TypeMnemonic
  pattern : Byte
  mask : Byte
  deriving DecidableEq, Repr

/-- The byte selects the row (R74). -/
def OpRow.selects (r : OpRow) (t : Byte) : Bool := t &&& r.mask == r.pattern

/-- The ten message rows, in the table's order (R74). -/
def opcodeTable : List OpRow :=
  [ { mnemonic := .pat, pattern := Config.typePattern, mask := 0xFF#8 },
    { mnemonic := .freq, pattern := Config.typeFrequency, mask := 0xFF#8 },
    { mnemonic := .amp, pattern := Config.typeAmplitude, mask := 0xFF#8 },
    { mnemonic := .unk, pattern := 0x00#8, mask := 0xFF#8 },
    { mnemonic := .unk, pattern := 0x04#8, mask := 0xFC#8 },
    { mnemonic := .unk, pattern := 0x08#8, mask := 0xF8#8 },
    { mnemonic := .unk, pattern := 0x10#8, mask := 0xF0#8 },
    { mnemonic := .unk, pattern := 0x20#8, mask := 0xE0#8 },
    { mnemonic := .unk, pattern := 0x40#8, mask := 0xC0#8 },
    { mnemonic := .unk, pattern := 0x80#8, mask := 0x80#8 } ]

/-- The mnemonic of the first row that the byte selects. -/
def lookupType (t : Byte) : Option TypeMnemonic :=
  (opcodeTable.find? fun r => r.selects t).map OpRow.mnemonic

/-! ### From bytes to an instruction -/

/-- Why no instruction is read. -/
inductive DecodeReject
  /-- there is no byte to read -/
  | endOfStream
  /-- no row of the table is selected: never the case, the rows cover every byte (R74) -/
  | noRow
  /-- the position has `message_kind = Pattern` with `field_kind = None`, which is unreachable (R111) -/
  | noField
  deriving DecidableEq, Repr

/-- The type byte read in Idle (R85, R86 to R89). -/
def decodeType (t : Byte) : Except DecodeReject Instr :=
  match lookupType t with
  | some .pat => .ok (.pat .typeByte)
  | some .freq => .ok (.freq .typeByte)
  | some .amp => .ok (.amp .typeByte)
  | some .unk => .ok (.unk t)
  | none => .error .noRow

/-- How the next byte is read at a decoder position (R14, R70, R85, R111). -/
def decodeByte (mk : MessageKind) (fk : FieldKind) (deny : Bits3) (b : Byte) : Except DecodeReject Instr :=
  match mk with
  | .none => decodeType b
  | .frequency => .ok (.freq (.payload b))
  | .amplitude => .ok (.amp (.payload b))
  | .pattern =>
    match fk with
    | .none => .error .noField
    | .length => .ok (.pat (.length b deny))
    | .data => .ok (.pat (.data b))
    | .delimiter => .ok (.pat (.delimiter b))

/-- The decoder: at a position, the instruction that the first byte makes, and the bytes after it. -/
def decode (mk : MessageKind) (fk : FieldKind) (deny : Bits3) (bytes : List Byte) :
    Except DecodeReject (Instr × List Byte) :=
  match bytes with
  | [] => .error .endOfStream
  | b :: rest => (decodeByte mk fk deny b).map fun i => (i, rest)

/-! ### From an instruction to bytes -/

/-- The byte of a format S step (R63). -/
def encodeShort (type : Byte) (p : ShortByte) : List Byte :=
  match p with
  | .typeByte => [type]
  | .payload b => [b]

/-- The stream byte of an instruction (R62 to R65); `TICK` and `RESET` are not encoded (R74). -/
def encode : Instr → List Byte
  | .pat .typeByte => [Config.typePattern]
  | .pat (.length b _) => [b]
  | .pat (.data b) => [b]
  | .pat (.delimiter b) => [b]
  | .freq p => encodeShort Config.typeFrequency p
  | .amp p => encodeShort Config.typeAmplitude p
  | .unk t => [t]
  | .tick => []
  | .reset => []

/-- The instruction is a byte of the stream, not an event (R74). -/
def Instr.onStream : Instr → Bool
  | .tick => false
  | .reset => false
  | .pat _ => true
  | .freq _ => true
  | .amp _ => true
  | .unk _ => true

/-- The message and field kind of the position at which the instruction's byte is read (R85, R111). -/
def Instr.readAt : Instr → MessageKind × FieldKind
  | .pat .typeByte => (.none, .none)
  | .pat (.length _ _) => (.pattern, .length)
  | .pat (.data _) => (.pattern, .data)
  | .pat (.delimiter _) => (.pattern, .delimiter)
  | .freq .typeByte => (.none, .none)
  | .freq (.payload _) => (.frequency, .none)
  | .amp .typeByte => (.none, .none)
  | .amp (.payload _) => (.amplitude, .none)
  | .unk _ => (.none, .none)
  | .tick => (.none, .none)
  | .reset => (.none, .none)

/-- The draw the instruction carries; it is read in a length step only (R103). -/
def Instr.draw : Instr → Bits3
  | .pat (.length _ deny) => deny
  | _ => 0#3

/-! ### Whole messages (R63 to R69, R73) -/

/-- A 16-bit field on the stream, low byte first (R47). -/
def encodeField (v : Word) : List Byte := [loByte v, hiByte v]

/-- The first three bytes of a pattern message of `n` samples per channel (R64). -/
def encodePatHead (n : Nat) : List Byte := Config.typePattern :: encodeField (BitVec.ofNat 16 n)

/-- The bytes of a message, in order of arrival (R63, R64, R65, R69). -/
def encodeMessage : Message → List Byte
  | .freq v => Config.typeFrequency :: encodeField v
  | .amp v => Config.typeAmplitude :: encodeField v
  | .unk t => [t]
  | .pat a b c => encodePatHead a.length ++ a ++ Config.delim :: (b ++ Config.delim :: (c ++ [Config.delim]))
  | .patBadA a d => encodePatHead a.length ++ a ++ [d]
  | .patBadB a b d => encodePatHead a.length ++ a ++ Config.delim :: (b ++ [d])
  | .patBadC a b c d => encodePatHead a.length ++ a ++ Config.delim :: (b ++ Config.delim :: (c ++ [d]))

/-- `n` data bytes and the byte at the delimiter position after them (R64, R68: found by counting). -/
def takeBlock (n : Nat) (bytes : List Byte) : Option (List Byte × Byte × List Byte) :=
  match bytes.drop n with
  | [] => none
  | d :: rest => some (bytes.take n, d, rest)

/-- The rest of a pattern message after its length (R64, R69). -/
def parseBody (n : Nat) (bytes : List Byte) : Option (Message × List Byte) :=
  match takeBlock n bytes with
  | none => none
  | some (a, d₁, r₁) =>
    if d₁ ≠ Config.delim then some (.patBadA a d₁, r₁)
    else
      match takeBlock n r₁ with
      | none => none
      | some (b, d₂, r₂) =>
        if d₂ ≠ Config.delim then some (.patBadB a b d₂, r₂)
        else
          match takeBlock n r₂ with
          | none => none
          | some (c, d₃, r₃) => if d₃ ≠ Config.delim then some (.patBadC a b c d₃, r₃) else some (.pat a b c, r₃)

/-- The two bytes of a 16-bit field, low byte first (R47, R67). -/
def takeField (bytes : List Byte) : Option (Word × List Byte) :=
  match bytes with
  | lo :: hi :: rest => some (joinBytes hi lo, rest)
  | _ => none

/-- The first message of a byte sequence and what follows it; nothing while the message is incomplete (R60, R69). -/
def parseMessage (bytes : List Byte) : Option (Message × List Byte) :=
  match bytes with
  | [] => none
  | t :: rest =>
    match lookupType t with
    | some .freq => (takeField rest).map fun vr => (.freq vr.1, vr.2)
    | some .amp => (takeField rest).map fun vr => (.amp vr.1, vr.2)
    | some .pat => (takeField rest).bind fun nr => parseBody nr.1.toNat nr.2
    | some .unk => some (.unk t, rest)
    | none => none

/-! ### The opcode table's numbering of words -/

/-- The bytes of an `nbits` bit word: bits 7..0 are the first byte (R74: the type byte is byte offset 0). -/
def wordBytes (nbits w : Nat) : List Byte :=
  (List.range (nbits / 8)).map fun k => BitVec.ofNat 8 (w >>> (8 * k))

/-- The instruction that the decoder reads in Idle from a table word: its first byte is a type byte. -/
def decodeTableWord (nbits w : Nat) : Option Instr :=
  match decode .none .none 0#3 (wordBytes nbits w) with
  | .ok (i, _) => some i
  | .error _ => none

/-- How many bytes the shortest message of a type byte has when its further bytes are zeros (R69): a pattern message of
length 0 ends at its first, wrong, delimiter. -/
def zeroPaddedLength (bytes : List Byte) : Nat :=
  match bytes with
  | [] => 0
  | t :: _ =>
    match lookupType t with
    | some .pat => 4
    | some .freq => 3
    | some .amp => 3
    | some .unk => 1
    | none => 1

/-- The bytes of a table word, with zero bytes up to a whole message. -/
def tableWordBytes (nbits w : Nat) : List Byte :=
  let bytes := wordBytes nbits w
  bytes ++ List.replicate (zeroPaddedLength bytes - bytes.length) 0#8

end Sys2Proof
end

