-- ==== Sys2Proof/Machine/Memory.lean ====
section
/-! DEFINITION. The sample memory (20_memory.md R40 to R45) as plain data: a list of cells in one canonical form. -/

namespace Sys2Proof.Machine

/-- The sample memory: the bytes that have been written, by rising cell key. A byte that is not listed has never been
written since power-on and has no value (R172; log 6). -/
abbrev Memory := List Host.Cell

/-- The buffer number of a channel: `A`, `B`, `C` index channel buffers 0, 1, 2 of a bank (R13). -/
def channelIndex : Channel → Nat
  | .a => 0
  | .b => 1
  | .c => 2

/-- The key of the byte `(k, ch, i)`. The spec fixes no address (R45, D25): this numbering is the model's own (DESIGN
CHOICE, log 7) and is one to one for every index below 65536. -/
def cellKey (k : Bank) (ch : Channel) (i : Nat) : Nat := (3 * k.toNat + channelIndex ch) * 65536 + i

/-- The byte at a key, if it has been written. -/
def Memory.read (m : Memory) (key : Nat) : Option Byte :=
  match m with
  | [] => none
  | (k, v) :: rest => if k = key then some v else Memory.read rest key

/-- The memory with the byte at a key replaced, and no other byte changed (R41). -/
def Memory.write (m : Memory) (key : Nat) (v : Byte) : Memory :=
  match m with
  | [] => [(key, v)]
  | (k, u) :: rest =>
    if key < k then (key, v) :: (k, u) :: rest
    else if key = k then (key, v) :: rest
    else (k, u) :: Memory.write rest key v

/-- Every key of the list is above a bound, and the keys rise strictly. -/
def Memory.risingFrom (bound : Nat) (m : Memory) : Bool :=
  match m with
  | [] => true
  | (k, _) :: rest => decide (bound ≤ k) && Memory.risingFrom (k + 1) rest

/-- The canonical form: the keys rise strictly, so no key stands twice. No listed byte equals what an unlisted address
reads as, because an unlisted address has no value. -/
def Memory.wf (m : Memory) : Bool := Memory.risingFrom 0 m

/-- The three channels in order. -/
def allChannels : List Channel := [.a, .b, .c]

/-- The bytes that `RESET` writes: `(0, ch, i)` for each channel and each `i < RESET_COUNT` (R171). -/
def resetKeys : List Nat :=
  allChannels.flatMap fun ch => (List.range Config.resetCount).map fun i => cellKey 0#1 ch i

/-- The sample memory after `RESET`: the reset samples written, every other byte as it was (R171, R172). -/
def Memory.afterReset (m : Memory) : Memory :=
  resetKeys.foldl (fun acc key => Memory.write acc key Config.resetSample) m

end Sys2Proof.Machine
end

