-- ==== Sys2Proof/Machine/State.lean ====
section
/-! DEFINITION. The state of the block (10_state.md), its reset state (70_reset_and_hazards.md R171), its named updates,
and the reasons a step can stop. -/

namespace Sys2Proof.Machine

/-- The Decoder State: private to the decoder agent (R11 to R20). -/
structure DecoderState where
  /-- `message_kind` (R11) -/
  messageKind : MessageKind
  /-- `field_kind` (R12) -/
  fieldKind : FieldKind
  /-- `active_channel` (R13) -/
  activeChannel : ActiveChannel
  /-- `byte_index` (R15) -/
  byteIndex : Word
  /-- `error` (R16) -/
  error : Bits3
  /-- `pending_length` (R17) -/
  pendingLength : Word
  /-- `pending_frequency` (R18) -/
  pendingFrequency : Word
  /-- `pending_amplitude` (R19) -/
  pendingAmplitude : Word
  /-- `shadow_claimed` (R20) -/
  shadowClaimed : Bits3
  deriving DecidableEq, Repr

/-- The initial values of the Decoder State (R21). -/
def DecoderState.initial : DecoderState :=
  { messageKind := .none, fieldKind := .none, activeChannel := .all, byteIndex := 0#16, error := 0#3,
    pendingLength := 0#16, pendingFrequency := 0#16, pendingAmplitude := 0#16, shadowClaimed := 0#3 }

/-- The registers of the Pattern Store (R22 to R26). -/
structure PatternStore where
  /-- `frequency` (R22) -/
  frequency : Word
  /-- `amplitude` (R23) -/
  amplitude : Word
  /-- `live_sel` (R24) -/
  liveSel : Bank
  /-- `sample_count` (R25) -/
  sampleCount : Word
  /-- `play_index` (R26) -/
  playIndex : Word
  deriving DecidableEq, Repr

/-- The `done(kind, flags)` event of a byte step (R30). -/
structure DoneEvent where
  kind : MessageKind
  flags : Bits3
  deriving DecidableEq, Repr

/-- What a tick puts out: the amplitude and the triple it read, of which the output words are `Scale` (R139, R141). -/
structure TickOut where
  amplitude : Word
  sampleA : Byte
  sampleB : Byte
  sampleC : Byte
  deriving DecidableEq, Repr

/-- The sample of one channel. -/
def TickOut.sample (o : TickOut) : Channel → Byte
  | .a => o.sampleA
  | .b => o.sampleB
  | .c => o.sampleC

/-- The output word `out[ch] = Scale(amplitude, s[ch])` (R139). -/
def TickOut.word (o : TickOut) (ch : Channel) : Nat := Config.scale o.amplitude (o.sample ch)

/-- All state of one instance of the block (R10), and the model's own fields: the instance's parameters, the outputs of
the latest step, the events still to come. -/
structure State where
  /-- the Decoder State (R11 to R20) -/
  dec : DecoderState
  /-- the Pattern Store registers (R22 to R26) -/
  store : PatternStore
  /-- the sample memory (R40) -/
  mem : Memory
  /-- `last_error` (R29) -/
  lastError : Bits3
  /-- the OPEN parameters of this instance (R5): the model's own field, never written (log 14) -/
  params : Params
  /-- the `done` event that the latest step emitted (R30): the model's own field (log 11) -/
  done : Option DoneEvent
  /-- what the latest step put out, if it was a tick (R139): the model's own field (log 11) -/
  out : Option TickOut
  /-- what the environment has yet to offer, first first (R31, R52): the model's own field (log 2) -/
  events : List Event
  deriving DecidableEq, Repr

/-- Why the machine stops with a fault. Both are safe: the block itself goes on. -/
inductive Fault
  /-- raised by `memRead`: the byte has not been written since power-on, so the spec gives it no value; a fault is what
  93_implementation_defined.md U7 allows. Safe (log 6). -/
  | unwrittenSample
  /-- raised by `memRead` and `memWrite`: an index of `CAP` or more names no byte of the sample memory (R40, R43). Safe:
  no legal state reaches it. -/
  | noSuchByte
  deriving DecidableEq, Repr

/-- Why a step has no meaning. -/
inductive Refusal
  /-- raised by `exec`'s arms alone: the instruction has no meaning yet. Safe. -/
  | notModelled (mnemonic : String)
  /-- raised by every byte step and by `TICK` in a state outside 10_state.md R33 and R28: 93_implementation_defined.md U9
  asks for it. Safe (log 4). -/
  | illegalState
  /-- raised by a byte step that `exec` is handed at a decoder position where the next byte does not mean that
  instruction; `step` never does so. Safe (log 5). -/
  | wrongPosition
  /-- raised by `UNK` with an assigned type byte, which is no `UNK`; `step` never does so. Safe (log 5). -/
  | illFormed
  /-- raised by `step` when the environment offers nothing: no step happens (R189). Safe (log 3). -/
  | noEvent
  deriving DecidableEq, Repr

/-- The outcome of one step. -/
abbrev Result := Host.Outcome State Fault Refusal

/-- The Pattern Store registers after reset (R171). -/
def PatternStore.resetOf (p : Params) : PatternStore :=
  { frequency := p.resetFrequency, amplitude := Config.resetAmplitude, liveSel := 0#1,
    sampleCount := BitVec.ofNat 16 Config.resetCount, playIndex := 0#16 }

/-- The state right after the first reset of an instance with the given parameters (R171, R174): only the reset samples
are in memory, and no event is offered yet. -/
def State.resetOf (p : Params) : State :=
  { dec := DecoderState.initial, store := PatternStore.resetOf p, mem := Memory.afterReset [], lastError := 0#3,
    params := p, done := none, out := none, events := [] }

/-- The machine right after reset, for the parameters `Config.params` (logs 8 and 9). -/
def State.reset : State := State.resetOf Config.params

/-! ### Named updates, one per field -/

/-- Replace the Decoder State. -/
def State.withDec (s : State) (d : DecoderState) : State := { s with dec := d }

/-- Replace the Pattern Store registers. -/
def State.withStore (s : State) (p : PatternStore) : State := { s with store := p }

/-- Replace the sample memory. -/
def State.withMem (s : State) (m : Memory) : State := { s with mem := m }

/-- Replace `last_error`. -/
def State.withLastError (s : State) (e : Bits3) : State := { s with lastError := e }

/-- Replace the `done` event of the step. -/
def State.withDone (s : State) (d : Option DoneEvent) : State := { s with done := d }

/-- Replace the tick output of the step. -/
def State.withOut (s : State) (o : Option TickOut) : State := { s with out := o }

/-- Replace the events still to come. -/
def State.withEvents (s : State) (e : List Event) : State := { s with events := e }

end Sys2Proof.Machine
end

