-- ==== Sys2Proof/Machine/Flags.lean ====
section
/-! DEFINITION. The error flags (60_exceptions.md R146) and `raise` (00_scope.md R7). The block computes no other flag. -/

namespace Sys2Proof.Machine

namespace Flag

/-- `None`: no flag (R16). -/
def none : Bits3 := 0b000#3

/-- `UnknownType`, bit 0 (R146). -/
def unknownType : Bits3 := 0b001#3

/-- `AllocationFailure`, bit 1 (R146). -/
def allocationFailure : Bits3 := 0b010#3

/-- `BadDelimiter`, bit 2 (R146). -/
def badDelimiter : Bits3 := 0b100#3

/-- `ZERO_LEN_ERR`, the flag a zero length raises (R5, R102, decision D9). -/
def zeroLenErr : Bits3 := allocationFailure

end Flag

/-- `raise E`: `error <- error | E` and nothing more (R7, R146). -/
def raiseFlag (e : Bits3) (s : State) : State := s.withDec { s.dec with error := s.dec.error ||| e }

/-- The message in progress is in error: for a pattern message, in drain (R105). -/
def inError (s : State) : Bool := s.dec.error != Flag.none

end Sys2Proof.Machine
end

