-- ==== Sys2Proof/Machine/Operands.lean ====
section
/-! DEFINITION. How a step's operand byte enters a register: the Byte Splicer (40_byte_splicer.md), the decoder position
(10_state.md R14), and the numeric codes of the enumerated registers (R11 to R13). -/

namespace Sys2Proof.Machine

/-- The splicer's `index` operand: 0 or 1, and no other value can be written (R83). -/
inductive SpliceIndex
  | lo
  | hi
  deriving DecidableEq, Repr

/-- `replace_byte(value, new_byte, index)` (R80). -/
def replaceByte (value : Word) (newByte : Byte) (index : SpliceIndex) : Word :=
  match index with
  | .lo => joinBytes (hiByte value) newByte
  | .hi => joinBytes newByte (loByte value)

/-- `byte_index` as the splicer's index: 0 or 1 wherever the decoder uses the splicer (R83). -/
def spliceIndex (byteIndex : Word) : Option SpliceIndex :=
  if byteIndex = 0#16 then some .lo else if byteIndex = 1#16 then some .hi else none

/-- `pos <- (mk, fk, ch, bi)` (R7, R14). -/
def setPos (mk : MessageKind) (fk : FieldKind) (ch : ActiveChannel) (bi : Word) (s : State) : State :=
  s.withDec { s.dec with messageKind := mk, fieldKind := fk, activeChannel := ch, byteIndex := bi }

/-- The channel that follows A or B at its delimiter (R107, R108); after C the message ends (R110). -/
def nextChannel : Channel → Option Channel
  | .a => some .b
  | .b => some .c
  | .c => none

/-- The bit of `shadow_claimed` and of `deny` that belongs to a channel (R20, R103). -/
def channelBit (v : Bits3) (ch : Channel) : Bool := v.getLsbD (channelIndex ch)

/-- The code of `message_kind` (R11). -/
def messageKindCode : MessageKind → BitVec 2
  | .none => 0#2
  | .pattern => 1#2
  | .frequency => 2#2
  | .amplitude => 3#2

/-- The code of `field_kind` (R12). -/
def fieldKindCode : FieldKind → BitVec 2
  | .none => 0#2
  | .length => 1#2
  | .data => 2#2
  | .delimiter => 3#2

/-- The code of `active_channel` (R13). -/
def activeChannelCode : ActiveChannel → BitVec 2
  | .all => 0#2
  | .one .a => 1#2
  | .one .b => 2#2
  | .one .c => 3#2

end Sys2Proof.Machine
end

