-- ==== Sys2Proof/Machine/Ops.lean ====
section
/-! DEFINITION. The shared operations: which states are legal, the guard every byte step and tick starts with, the two
memory accesses, and the end of a message with the one operation that rejects a message. -/

namespace Sys2Proof.Machine

/-! ### Legal states (10_state.md R28, R33; 93_implementation_defined.md U9) -/

/-- A 16-bit field of which `idx` bytes have arrived: nothing, or the low byte alone (R33). -/
def partialField (idx pending : Word) : Bool :=
  (idx == 0#16 && pending == 0#16) || (idx == 1#16 && hiByte pending == 0#8)

/-- The rows "filling" of R33: no error, all three buffers claimed, `1 <= pending_length <= CAP`. -/
def DecoderState.filling (cap : Nat) (d : DecoderState) : Bool :=
  d.error == Flag.none && d.shadowClaimed == 0b111#3 && decide (1 ≤ d.pendingLength.toNat) &&
    decide (d.pendingLength.toNat ≤ cap)

/-- The rows "drain" of R33: `AllocationFailure` alone and no buffer claimed. -/
def DecoderState.draining (d : DecoderState) : Bool :=
  d.error == Flag.allocationFailure && d.shadowClaimed == 0b000#3

/-- No error, nothing claimed, no channel selected: common to every row of R33 outside `Data` and `Delimiter`. -/
def DecoderState.quiet (d : DecoderState) : Bool :=
  d.error == Flag.none && d.shadowClaimed == 0b000#3 && d.activeChannel == .all

/-- The rows of R33 within `Pattern`. -/
def DecoderState.patternShape (cap : Nat) (d : DecoderState) : Bool :=
  match d.fieldKind with
  | .none => false
  | .length => d.quiet && partialField d.byteIndex d.pendingLength
  | .data =>
    d.activeChannel != .all && decide (d.byteIndex.toNat < d.pendingLength.toNat) && (d.filling cap || d.draining)
  | .delimiter => d.activeChannel != .all && d.byteIndex == 0#16 && (d.filling cap || d.draining)

/-- The Decoder State has one of the shapes of the table of R33. -/
def DecoderState.shape (cap : Nat) (d : DecoderState) : Bool :=
  match d.messageKind with
  | .none => d == DecoderState.initial
  | .frequency =>
    d.fieldKind == .none && d.quiet && partialField d.byteIndex d.pendingFrequency && d.pendingLength == 0#16 &&
      d.pendingAmplitude == 0#16
  | .amplitude =>
    d.fieldKind == .none && d.quiet && partialField d.byteIndex d.pendingAmplitude && d.pendingLength == 0#16 &&
      d.pendingFrequency == 0#16
  | .pattern => d.patternShape cap && d.pendingFrequency == 0#16 && d.pendingAmplitude == 0#16

/-- Clauses (a) and (b) of the Pattern Store invariant (R28). -/
def PatternStore.inBounds (cap : Nat) (p : PatternStore) : Bool :=
  decide (1 ≤ p.sampleCount.toNat) && decide (p.sampleCount.toNat ≤ cap) &&
    decide (p.playIndex.toNat < p.sampleCount.toNat)

/-- The registers are in a state that 93_implementation_defined.md U9 does not ask a model to refuse (log 4). -/
def State.legal (s : State) : Bool := s.dec.shape s.params.cap && s.store.inBounds s.params.cap

/-! ### The start of a step -/

/-- The outputs of the step before are gone (R30, R31: a step that emits nothing emits nothing). -/
def clearOutputs (s : State) : State := (s.withDone none).withOut none

/-- A byte step or a tick gives no meaning to an illegal state (U9, R187). -/
def whenLegal (s : State) (k : State → Result) : Result :=
  if s.legal then k (clearOutputs s) else .refused .illegalState

/-! ### The sample memory (20_memory.md) -/

/-- The shadow bank is bank `1 - live_sel` (R24). -/
def shadowBank (s : State) : Bank := 1#1 - s.store.liveSel

/-- `MemRead(k, ch, i)`: one byte, no side effect (R41, R44). -/
def memRead (s : State) (k : Bank) (ch : Channel) (i : Nat) : Except Fault Byte :=
  if i < s.params.cap then
    match s.mem.read (cellKey k ch i) with
    | some v => .ok v
    | none => .error .unwrittenSample
  else .error .noSuchByte

/-- `MemWrite(k, ch, i, v)`: one byte, and no other (R41). -/
def memWrite (s : State) (k : Bank) (ch : Channel) (i : Nat) (v : Byte) : Except Fault State :=
  if i < s.params.cap then .ok (s.withMem (s.mem.write (cellKey k ch i) v)) else .error .noSuchByte

/-! ### The end of a message -/

/-- `Release()`: the decoder owns no shadow buffer any more (R123). -/
def release (s : State) : State := s.withDec { s.dec with shadowClaimed := 0b000#3 }

/-- `EndMessage()`: latch `last_error`, emit `done`, reset the Decoder State (R112). No step writes `message_kind`
before it, so `kind` is the kind at the start of the step (R30). -/
def endMessage (s : State) : State :=
  ((s.withLastError s.dec.error).withDone (some { kind := s.dec.messageKind, flags := s.dec.error })).withDec
    DecoderState.initial

/-- Rejecting a message at this byte (R152, the counterpart of taking an exception): the flag is raised, any shadow
claim is released, and the message ends. Nothing is saved and nothing returns from it (R153). -/
def rejectMessage (e : Bits3) (s : State) : State := endMessage (release (raiseFlag e s))

end Sys2Proof.Machine
end

