-- ==== Sys2Proof/Machine/Consumer.lean ====
section
/-! DEFINITION. The consumer interface (44_consumer.md): the read view and `TICK`. -/

namespace Sys2Proof.Machine

/-- The read view (R135). A sample is `none` only where the memory byte has never been written, which no reachable
state shows. -/
structure ReadView where
  frequency : Word
  amplitude : Word
  sampleCount : Word
  playIndex : Word
  samplesA : List (Option Byte)
  samplesB : List (Option Byte)
  samplesC : List (Option Byte)
  deriving DecidableEq, Repr

/-- `channel_samples[ch][i] = MemRead(live_sel, ch, i)` (R27). -/
def liveSample (s : State) (ch : Channel) (i : Nat) : Option Byte := (memRead s s.store.liveSel ch i).toOption

/-- The buffer of a channel: its length is `sample_count` (R27). -/
def channelSamples (s : State) (ch : Channel) : List (Option Byte) :=
  (List.range s.store.sampleCount.toNat).map (liveSample s ch)

/-- `current_pattern()`: a pure read of the read view (R135, R136). -/
def currentPattern (s : State) : ReadView :=
  { frequency := s.store.frequency, amplitude := s.store.amplitude, sampleCount := s.store.sampleCount,
    playIndex := s.store.playIndex, samplesA := channelSamples s .a, samplesB := channelSamples s .b,
    samplesC := channelSamples s .c }

/-- The advance `(play_index + 1) mod sample_count`, on natural numbers (R140). -/
def advance (playIndex sampleCount : Word) : Word :=
  BitVec.ofNat 16 ((playIndex.toNat + 1) % sampleCount.toNat)

/-- The three samples at `play_index` of the live bank (R139). -/
def readTriple (s : State) : Except Fault TickOut :=
  match memRead s s.store.liveSel .a s.store.playIndex.toNat, memRead s s.store.liveSel .b s.store.playIndex.toNat,
    memRead s s.store.liveSel .c s.store.playIndex.toNat with
  | .ok a, .ok b, .ok c => .ok { amplitude := s.store.amplitude, sampleA := a, sampleB := b, sampleC := c }
  | .error f, _, _ => .error f
  | _, .error f, _ => .error f
  | _, _, .error f => .error f

/-- Put out the triple and advance `play_index` (R139). -/
def tickStep (s : State) : Result :=
  match readTriple s with
  | .ok o =>
    .next ((s.withOut (some o)).withStore
      { s.store with playIndex := advance s.store.playIndex s.store.sampleCount })
  | .error f => .fault f

/-- `TICK` (R139). -/
def execTick (s : State) : Result := whenLegal s tickStep

end Sys2Proof.Machine
end

