-- ==== Sys2Proof/Machine/Store.lean ====
section
/-! DEFINITION. The Pattern Store operations (43_pattern_store.md): commit and the two single-field setters. -/

namespace Sys2Proof.Machine

/-- `Commit()`: the shadow bank becomes live, with the decoded length, and the period restarts; then the bank that was
live is released (R121, R122, R124). -/
def commit (s : State) : State :=
  release
    (s.withStore
      { s.store with liveSel := 1#1 - s.store.liveSel, sampleCount := s.dec.pendingLength, playIndex := 0#16 })

/-- `SetFrequency(v)` (R125). -/
def setFrequency (v : Word) (s : State) : State := s.withStore { s.store with frequency := v }

/-- `SetAmplitude(v)` (R126). -/
def setAmplitude (v : Word) (s : State) : State := s.withStore { s.store with amplitude := v }

end Sys2Proof.Machine
end

