-- ==== Sys2Proof/Machine/Short.lean ====
section
/-! DEFINITION. The decoder in Idle and in the short messages (41_decoder_idle_short.md): `UNK`, `FREQ`, `AMP`. -/

namespace Sys2Proof.Machine

/-- A type byte read in Idle enters its message (R86, R87, R88). -/
def enterMessage (mk : MessageKind) (fk : FieldKind) (s : State) : Result :=
  match s.dec.messageKind with
  | .none => .next (setPos mk fk .all 0#16 s)
  | _ => .refused .wrongPosition

/-- One payload byte of `FREQ` (R90). -/
def frequencyStep (b : Byte) (s : State) : Result :=
  match s.dec.messageKind, spliceIndex s.dec.byteIndex with
  | .frequency, some index =>
    let s₁ := s.withDec
      { s.dec with
        pendingFrequency := replaceByte s.dec.pendingFrequency b index, byteIndex := s.dec.byteIndex + 1#16 }
    if s₁.dec.byteIndex = 2#16 then .next (endMessage (setFrequency s₁.dec.pendingFrequency s₁)) else .next s₁
  | .frequency, none => .refused .illegalState
  | _, _ => .refused .wrongPosition

/-- One payload byte of `AMP` (R91). -/
def amplitudeStep (b : Byte) (s : State) : Result :=
  match s.dec.messageKind, spliceIndex s.dec.byteIndex with
  | .amplitude, some index =>
    let s₁ := s.withDec
      { s.dec with
        pendingAmplitude := replaceByte s.dec.pendingAmplitude b index, byteIndex := s.dec.byteIndex + 1#16 }
    if s₁.dec.byteIndex = 2#16 then .next (endMessage (setAmplitude s₁.dec.pendingAmplitude s₁)) else .next s₁
  | .amplitude, none => .refused .illegalState
  | _, _ => .refused .wrongPosition

/-- An unassigned type byte is rejected in Idle (R89). -/
def unknownStep (t : Byte) (s : State) : Result :=
  if isUnassignedType t then
    match s.dec.messageKind with
    | .none => .next (rejectMessage Flag.unknownType s)
    | _ => .refused .wrongPosition
  else .refused .illFormed

/-- `FREQ`: one byte step (R87, R90, R92). -/
def execFreq (p : ShortByte) (s : State) : Result :=
  whenLegal s fun s =>
    match p with
    | .typeByte => enterMessage .frequency .none s
    | .payload b => frequencyStep b s

/-- `AMP`: one byte step (R88, R91, R93). -/
def execAmp (p : ShortByte) (s : State) : Result :=
  whenLegal s fun s =>
    match p with
    | .typeByte => enterMessage .amplitude .none s
    | .payload b => amplitudeStep b s

/-- `UNK`: its one byte step (R89). -/
def execUnk (t : Byte) (s : State) : Result := whenLegal s fun s => unknownStep t s

end Sys2Proof.Machine
end

