-- ==== Sys2Proof/Machine/Pattern.lean ====
section
/-! DEFINITION. The decoder in a pattern message (42_decoder_pattern.md): `PAT`. -/

namespace Sys2Proof.Machine

/-- The claim of one channel is granted: the length fits the buffer and the environment does not deny it (R103). -/
def grant (cap : Nat) (len : Word) (deny : Bits3) (ch : Channel) : Bool :=
  decide (len.toNat ≤ cap) && !channelBit deny ch

/-- `Claim(len, deny)`: all three shadow buffers, or none and `AllocationFailure` (R103). -/
def claim (deny : Bits3) (s : State) : State :=
  if allChannels.all (grant s.params.cap s.dec.pendingLength deny) then
    s.withDec { s.dec with shadowClaimed := 0b111#3 }
  else raiseFlag Flag.allocationFailure (release s)

/-- `EnterField()`: the start of the data field of a channel, or its delimiter when the field is empty (R104). -/
def enterField (ch : Channel) (s : State) : State :=
  s.withDec
    { s.dec with
      activeChannel := .one ch, byteIndex := 0#16,
      fieldKind := if s.dec.pendingLength = 0#16 then .delimiter else .data }

/-- `LengthComplete(deny)` (R101, R102). -/
def lengthComplete (deny : Bits3) (s : State) : State :=
  enterField .a (if s.dec.pendingLength = 0#16 then raiseFlag Flag.zeroLenErr s else claim deny s)

/-- One byte of the `Length` field (R100). -/
def lengthStep (b : Byte) (deny : Bits3) (s : State) : Result :=
  match spliceIndex s.dec.byteIndex with
  | some index =>
    let s₁ := s.withDec
      { s.dec with pendingLength := replaceByte s.dec.pendingLength b index, byteIndex := s.dec.byteIndex + 1#16 }
    if s₁.dec.byteIndex = 2#16 then .next (lengthComplete deny s₁) else .next s₁
  | none => .refused .illegalState

/-- The byte has been counted: at `pending_length` the field is over (R106). -/
def countByte (s : State) : State :=
  if s.dec.byteIndex + 1#16 = s.dec.pendingLength then
    s.withDec { s.dec with fieldKind := .delimiter, byteIndex := 0#16 }
  else s.withDec { s.dec with byteIndex := s.dec.byteIndex + 1#16 }

/-- One byte of a `Data` field: stored in the shadow bank unless in drain, and counted (R105, R106). -/
def dataStep (b : Byte) (s : State) : Result :=
  match s.dec.activeChannel with
  | .all => .refused .illegalState
  | .one ch =>
    if inError s then .next (countByte s)
    else
      match memWrite s (shadowBank s) ch s.dec.byteIndex.toNat b with
      | .ok s₁ => .next (countByte s₁)
      | .error f => .fault f

/-- The last delimiter: commit unless in drain, and the message ends (R110). -/
def finishPattern (s : State) : State := endMessage (if inError s then s else commit s)

/-- One byte at a delimiter position (R107 to R110). -/
def delimiterStep (b : Byte) (s : State) : Result :=
  match s.dec.activeChannel with
  | .all => .refused .illegalState
  | .one ch =>
    if b ≠ Config.delim then .next (rejectMessage Flag.badDelimiter s)
    else
      match nextChannel ch with
      | some ch' => .next (enterField ch' s)
      | none => .next (finishPattern s)

/-- The step is taken only at the field its byte belongs to (R111). -/
def atField (fk : FieldKind) (s : State) (r : Result) : Result :=
  if s.dec.messageKind = .pattern ∧ s.dec.fieldKind = fk then r else .refused .wrongPosition

/-- `PAT`: one byte step (R86, R111). -/
def execPat (p : PatByte) (s : State) : Result :=
  whenLegal s fun s =>
    match p with
    | .typeByte => enterMessage .pattern .length s
    | .length b deny => atField .length s (lengthStep b deny s)
    | .data b => atField .data s (dataStep b s)
    | .delimiter b => atField .delimiter s (delimiterStep b s)

end Sys2Proof.Machine
end

