-- ==== Sys2Proof/Machine/Reset.lean ====
section
/-! DEFINITION. `RESET` (70_reset_and_hazards.md R170 to R173). -/

namespace Sys2Proof.Machine

/-- The reset state, from any state: only the sample-memory bytes that `RESET` does not write keep their values
(R171, R172), and the environment goes on with the events it has yet to offer (R173). -/
def resetStep (s : State) : State :=
  (((((clearOutputs s).withDec DecoderState.initial).withStore (PatternStore.resetOf s.params)).withLastError
    Flag.none).withMem s.mem.afterReset)

/-- `RESET`: allowed in any state (R170). -/
def execReset (s : State) : Result := .next (resetStep s)

end Sys2Proof.Machine
end

