-- ==== Sys2Proof/Machine/Dispatch.lean ====
section
/-! DEFINITION. One arm per constructor of Instr. -/

namespace Sys2Proof.Machine

/-- The meaning of each instruction. -/
def exec (i : Instr) (s : State) : Host.Outcome State Fault Refusal :=
  match i with
  | .pat p => Sys2Proof.Machine.execPat p s
  | .freq p => Sys2Proof.Machine.execFreq p s
  | .amp p => Sys2Proof.Machine.execAmp p s
  | .unk t => Sys2Proof.Machine.execUnk t s
  | .tick => Sys2Proof.Machine.execTick s
  | .reset => Sys2Proof.Machine.execReset s

end Sys2Proof.Machine
end

