-- ==== Sys2Proof/Machine/Fetch.lean ====
section
/-! DEFINITION. How the next event becomes an instruction: the decoder reads a byte at its position (10_state.md R14),
a tick and a reset are instructions of their own (30_encoding.md R74). -/

namespace Sys2Proof.Machine

/-- The instruction that an event makes in a state. A reset wins over the byte and the tick that coincide with it
(R173). -/
def fetchEvent (s : State) (e : Event) : Except DecodeReject Instr :=
  match e with
  | .byte b deny => (decode s.dec.messageKind s.dec.fieldKind deny [b]).map Prod.fst
  | .tick => .ok .tick
  | .reset _ _ => .ok .reset

/-- What a step answers when no instruction can be read: only at the unreachable position `Pattern` with no field
(R111: refuse it), or when there is nothing to read. -/
def rejectOutcome : DecodeReject → Result
  | .endOfStream => .refused .noEvent
  | .noRow => .refused .illegalState
  | .noField => .refused .illegalState

/-- The bytes of a table word as the next events, with no claim denied (log 12). -/
def tableWordEvents (nbits w : Nat) : List Event := (tableWordBytes nbits w).map fun b => .byte b 0#3

end Sys2Proof.Machine
end

