-- ==== Sys2Proof/Machine/Step.lean ====
section
/-! DEFINITION. One step of the block: the environment's next event, taken as one indivisible step of one agent
(20_memory.md R50, R51, R52). -/

namespace Sys2Proof.Machine

/-- The next step: the first event is consumed and its instruction runs. With no event there is no step (R189). -/
def step (s : State) : Host.Outcome State Fault Refusal :=
  match s.events with
  | [] => .refused .noEvent
  | e :: rest =>
    match fetchEvent s e with
    | .ok i => exec i (s.withEvents rest)
    | .error r => rejectOutcome r

/-- The state in which the very next step runs the table word's instruction: its bytes are the next to arrive, and the
decoder is Idle, where a type byte is read. -/
def State.withFetchWord (s : State) (nbits w : Nat) : State :=
  (s.withDec DecoderState.initial).withEvents (tableWordEvents nbits w ++ s.events)

end Sys2Proof.Machine
end

