-- ==== Sys2Proof/Safety.lean ====
section
/-! DEFINITION. The terms of the claims: the invariant of the reachable states, runs over the environment's events, and
what the consumer can still see after them. -/

namespace Sys2Proof.Machine

/-! ### The invariant -/

/-- The byte has been written: a read of it answers a value. -/
def written (s : State) (k : Bank) (ch : Channel) (i : Nat) : Prop := ∃ v, memRead s k ch i = .ok v

/-- The sample `i` of channel `ch` of the pattern message in progress has arrived (R54, R106, R128). -/
def arrived (d : DecoderState) (ch : Channel) (i : Nat) : Prop :=
  match d.activeChannel with
  | .all => False
  | .one cur =>
    (channelIndex ch < channelIndex cur ∧ i < d.pendingLength.toNat) ∨
      (ch = cur ∧ i < (if d.fieldKind = .delimiter then d.pendingLength.toNat else d.byteIndex.toNat))

/-- The flag values an ended message can leave (R150). -/
def possibleFlags : List Bits3 := [0b000#3, 0b001#3, 0b010#3, 0b100#3, 0b110#3]

/-- What holds in every state between two steps. -/
structure StateInv (s : State) : Prop where
  /-- the table of R33 and clauses (a), (b) of R28 -/
  legal : s.legal = true
  /-- equal memories are equal data -/
  memCanonical : s.mem.wf = true
  /-- only bytes that exist are listed (R40, R43) -/
  cellsExist : ∀ cell ∈ s.mem, ∃ k ch i, i < s.params.cap ∧ cell.1 = cellKey k ch i
  /-- every byte the consumer can read has been written (R28 clause (c), R128) -/
  liveWritten : ∀ ch i, i < s.store.sampleCount.toNat → written s s.store.liveSel ch i
  /-- every sample that has arrived is in the claimed shadow bank (R54) -/
  shadowFilled : s.dec.shadowClaimed = 0b111#3 → ∀ ch i, arrived s.dec ch i → written s (shadowBank s) ch i
  /-- the flags of the last message (R150) -/
  lastErrorPossible : s.lastError ∈ possibleFlags

/-! ### Runs over the environment's events -/

/-- `n` steps of the machine. -/
def run (n : Nat) (s : State) : Result := Host.Core.run Sys2Proof.core n s

/-- The bytes of a sequence of events, in order of arrival. -/
def eventBytes : List Event → List Byte
  | [] => []
  | .byte b _ :: rest => b :: eventBytes rest
  | .tick :: rest => eventBytes rest
  | .reset _ _ :: rest => eventBytes rest

/-- The number of ticks of a sequence of events. -/
def tickCount : List Event → Nat
  | [] => 0
  | .byte _ _ :: rest => tickCount rest
  | .tick :: rest => tickCount rest + 1
  | .reset _ _ :: rest => tickCount rest

/-- No event of the sequence is a reset. -/
def noReset : List Event → Bool
  | [] => true
  | .byte _ _ :: rest => noReset rest
  | .tick :: rest => noReset rest
  | .reset _ _ :: _ => false

/-- The draw of the byte number `k` of a sequence of events, counted from 0. -/
def drawAt : Nat → List Event → Option Bits3
  | _, [] => none
  | 0, .byte _ deny :: _ => some deny
  | k + 1, .byte _ _ :: rest => drawAt k rest
  | k, .tick :: rest => drawAt k rest
  | k, .reset _ _ :: rest => drawAt k rest

/-- The events carry exactly the bytes of a message, with any ticks among them, and end with its last byte. -/
def carries (m : Message) (e : List Event) : Prop :=
  noReset e = true ∧ eventBytes e = encodeMessage m ∧ ∃ e' b deny, e = e' ++ [.byte b deny]

/-- `play_index` after `k` ticks (R140, R142). -/
def advanceBy (playIndex sampleCount : Word) (k : Nat) : Word :=
  BitVec.ofNat 16 ((playIndex.toNat + k) % sampleCount.toNat)

/-- The Pattern Store is what it was, apart from the advances of `k` ticks (R92, R115, R116): the registers and every
byte the consumer can read. -/
def playsOn (k : Nat) (s t : State) : Prop :=
  t.store = { s.store with playIndex := advanceBy s.store.playIndex s.store.sampleCount k } ∧
    ∀ ch i, i < s.store.sampleCount.toNat → liveSample t ch i = liveSample s ch i

/-- The claim of a pattern message of `n` samples per channel is refused, or its length is 0 (R102, R103). -/
def claimRefused (s : State) (n : Nat) (deny : Bits3) : Prop := n = 0 ∨ s.params.cap < n ∨ deny ≠ 0#3

end Sys2Proof.Machine
end

