-- ==== Sys2Proof/Certificates/Slice0/Obligations.lean ====
section
/-! DEFINITION. The statements about the model, for the provers. Each docstring names the rule of spec/ it rests on. -/

open Sys2Proof Sys2Proof.Machine

/-! ### Encoding -/

/-- 30_encoding.md R62: the type-byte map over all 256 values, as the decoder reads it in Idle. -/
def Obligations.TypeByteSelectsMessage : Prop :=
  ∀ (fk : FieldKind) (deny : Bits3) (t : Byte) (rest : List Byte),
    decode .none fk deny (t :: rest) =
      .ok
        (if t = 0x01#8 then .pat .typeByte
          else if t = 0x02#8 then .freq .typeByte
          else if t = 0x03#8 then .amp .typeByte
          else .unk t,
          rest)

/-- 30_encoding.md R74: the ten match and mask pairs are disjoint and cover every byte. -/
def Obligations.OpcodeRowsPartitionTypeBytes : Prop :=
  ∀ t : Byte, ∃ row, opcodeTable.filter (fun r => r.selects t) = [row]

/-- One word of each mnemonic of the opcode table, written out from 30_encoding.md R63 to R65, decodes to its
instruction; the words of FREQ and AMP carry the data 0x2710. -/
def Obligations.WrittenOutWordsDecode : Prop :=
  decodeTableWord 8 0b00000001 = some (.pat .typeByte) ∧
    decodeTableWord 24 0b00100111_00010000_00000010 = some (.freq .typeByte) ∧
      decodeTableWord 24 0b00100111_00010000_00000011 = some (.amp .typeByte) ∧
        decodeTableWord 8 0b00000000 = some (.unk 0x00#8) ∧ decodeTableWord 8 0b00000111 = some (.unk 0x07#8) ∧
          decodeTableWord 8 0b01010101 = some (.unk 0x55#8) ∧ decodeTableWord 8 0b11111111 = some (.unk 0xFF#8) ∧
            parseMessage [0x02#8, 0x10#8, 0x27#8] = some (.freq 0x2710#16, [])

/-- Decoding undoes encoding for every instruction of the byte stream, with every operand, at the position where its
byte is read. -/
def Obligations.DecodeUndoesEncode : Prop :=
  ∀ (i : Instr) (rest : List Byte), i.wellFormed = true → i.onStream = true →
    decode i.readAt.1 i.readAt.2 i.draw (encode i ++ rest) = .ok (i, rest)

/-- 30_encoding.md R63: the three bytes of a short message. -/
def Obligations.ShortMessageLayout : Prop :=
  ∀ v : Word,
    encodeMessage (.freq v) = [0x02#8, v.extractLsb' 0 8, v.extractLsb' 8 8] ∧
      encodeMessage (.amp v) = [0x03#8, v.extractLsb' 0 8, v.extractLsb' 8 8]

/-- 30_encoding.md R64 and R69: the layout of a pattern message, its length `3 * len + 6`, and where a wrong delimiter
ends it. -/
def Obligations.PatternMessageLayout : Prop :=
  ∀ (a b c : List Byte) (d : Byte), a.length < 65536 → b.length = a.length → c.length = a.length →
    (∃ lo hi : Byte,
      lo.toNat + 256 * hi.toNat = a.length ∧
        encodeMessage (.pat a b c) = [0x01#8, lo, hi] ++ a ++ [0x55#8] ++ b ++ [0x55#8] ++ c ++ [0x55#8] ∧
          encodeMessage (.patBadA a d) = [0x01#8, lo, hi] ++ a ++ [d] ∧
            encodeMessage (.patBadB a b d) = [0x01#8, lo, hi] ++ a ++ [0x55#8] ++ b ++ [d] ∧
              encodeMessage (.patBadC a b c d) = [0x01#8, lo, hi] ++ a ++ [0x55#8] ++ b ++ [0x55#8] ++ c ++ [d]) ∧
      (encodeMessage (.pat a b c)).length = 3 * a.length + 6 ∧ (encodeMessage (.patBadA a d)).length = 4 + a.length ∧
        (encodeMessage (.patBadB a b d)).length = 5 + 2 * a.length ∧
          (encodeMessage (.patBadC a b c d)).length = 6 + 3 * a.length

/-- 30_encoding.md R60, R69: parsing gives back every well-formed message and leaves exactly the bytes after it. -/
def Obligations.ParseUndoesEncodeMessage : Prop :=
  ∀ (m : Message) (rest : List Byte), m.wellFormed = true → parseMessage (encodeMessage m ++ rest) = some (m, rest)

/-- 30_encoding.md R69, R72: what is parsed is a well-formed message, and its encoding is exactly the bytes consumed. -/
def Obligations.ParsedMessageIsItsBytes : Prop :=
  ∀ (bytes : List Byte) (m : Message) (rest : List Byte), parseMessage bytes = some (m, rest) →
    m.wellFormed = true ∧ encodeMessage m ++ rest = bytes

/-! ### The Byte Splicer -/

/-- 40_byte_splicer.md R80: `replace_byte`, as a concatenation and as integers. -/
def Obligations.ReplaceByteContract : Prop :=
  ∀ (v : Word) (b : Byte),
    replaceByte v b .lo = (v.extractLsb' 8 8 ++ b : BitVec 16) ∧
      replaceByte v b .hi = (b ++ v.extractLsb' 0 8 : BitVec 16) ∧
        replaceByte v b .lo = v &&& 0xFF00#16 ||| b.setWidth 16 ∧
          replaceByte v b .hi = v &&& 0x00FF#16 ||| b.setWidth 16 * 256#16

/-- 40_byte_splicer.md R82: the five laws of the splicer, and 20_memory.md R47, 30_encoding.md R67: two splices assemble
a field low byte first. -/
def Obligations.SplicerLaws : Prop :=
  ∀ (v : Word) (x y : Byte),
    (loByte (replaceByte v x .lo) = x ∧ hiByte (replaceByte v x .lo) = hiByte v) ∧
      (hiByte (replaceByte v x .hi) = x ∧ loByte (replaceByte v x .hi) = loByte v) ∧
        (replaceByte (replaceByte v x .lo) y .hi = joinBytes y x ∧
          replaceByte (replaceByte v y .hi) x .lo = joinBytes y x ∧
            (joinBytes y x).toNat = x.toNat + 256 * y.toNat) ∧
          (∀ i, replaceByte (replaceByte v x i) y i = replaceByte v y i) ∧
            replaceByte v (loByte v) .lo = v ∧ replaceByte v (hiByte v) .hi = v

/-! ### The decoder in Idle and the short messages -/

/-- 41_decoder_idle_short.md R86, R87, R88: a type byte in Idle sets the position and nothing else. -/
def Obligations.TypeByteStartsMessage : Prop :=
  ∀ s : State, s.legal = true → s.dec.messageKind = .none →
    exec (.pat .typeByte) s =
        .next
          { s with
            dec := { s.dec with messageKind := .pattern, fieldKind := .length, activeChannel := .all, byteIndex := 0#16 }
            done := none
            out := none } ∧
      exec (.freq .typeByte) s =
          .next
            { s with
              dec := { s.dec with messageKind := .frequency, fieldKind := .none, activeChannel := .all, byteIndex := 0#16 }
              done := none
              out := none } ∧
        exec (.amp .typeByte) s =
          .next
            { s with
              dec := { s.dec with messageKind := .amplitude, fieldKind := .none, activeChannel := .all, byteIndex := 0#16 }
              done := none
              out := none }

/-- 41_decoder_idle_short.md R89: any other byte in Idle is rejected, and the decoder stays Idle. -/
def Obligations.UnassignedTypeByteRejected : Prop :=
  ∀ (s : State) (t : Byte), s.legal = true → s.dec.messageKind = .none → t ≠ 0x01#8 → t ≠ 0x02#8 → t ≠ 0x03#8 →
    exec (.unk t) s =
      .next
        { s with
          dec := DecoderState.initial
          lastError := 0b001#3
          done := some { kind := .none, flags := 0b001#3 }
          out := none }

/-- 41_decoder_idle_short.md R90: the two payload bytes of FREQ. -/
def Obligations.FreqPayloadStep : Prop :=
  ∀ (s : State) (b : Byte), s.legal = true → s.dec.messageKind = .frequency →
    (s.dec.byteIndex = 0#16 →
      exec (.freq (.payload b)) s =
        .next
          { s with
            dec := { s.dec with pendingFrequency := joinBytes 0x00#8 b, byteIndex := 1#16 }
            done := none
            out := none }) ∧
      (s.dec.byteIndex = 1#16 →
        exec (.freq (.payload b)) s =
          .next
            { s with
              dec := DecoderState.initial
              store := { s.store with frequency := joinBytes b (loByte s.dec.pendingFrequency) }
              lastError := 0b000#3
              done := some { kind := .frequency, flags := 0b000#3 }
              out := none })

/-- 41_decoder_idle_short.md R91: the two payload bytes of AMP. -/
def Obligations.AmpPayloadStep : Prop :=
  ∀ (s : State) (b : Byte), s.legal = true → s.dec.messageKind = .amplitude →
    (s.dec.byteIndex = 0#16 →
      exec (.amp (.payload b)) s =
        .next
          { s with
            dec := { s.dec with pendingAmplitude := joinBytes 0x00#8 b, byteIndex := 1#16 }
            done := none
            out := none }) ∧
      (s.dec.byteIndex = 1#16 →
        exec (.amp (.payload b)) s =
          .next
            { s with
              dec := DecoderState.initial
              store := { s.store with amplitude := joinBytes b (loByte s.dec.pendingAmplitude) }
              lastError := 0b000#3
              done := some { kind := .amplitude, flags := 0b000#3 }
              out := none })

/-! ### The decoder in a pattern message -/

/-- 42_decoder_pattern.md R100 to R104: the two length bytes; a zero length raises AllocationFailure and skips the empty
data field, a granted claim owns all three buffers, a refused claim owns none and drains. -/
def Obligations.LengthFieldStep : Prop :=
  ∀ (s : State) (b : Byte) (deny : Bits3) (len : Word), s.legal = true → s.dec.messageKind = .pattern →
    s.dec.fieldKind = .length → len = joinBytes b (loByte s.dec.pendingLength) →
      (s.dec.byteIndex = 0#16 →
        exec (.pat (.length b deny)) s =
          .next
            { s with
              dec := { s.dec with pendingLength := joinBytes 0x00#8 b, byteIndex := 1#16 }
              done := none
              out := none }) ∧
        (s.dec.byteIndex = 1#16 → len = 0#16 →
          exec (.pat (.length b deny)) s =
            .next
              { s with
                dec :=
                  { s.dec with
                    pendingLength := 0#16, fieldKind := .delimiter, activeChannel := .one .a, byteIndex := 0#16,
                    error := 0b010#3, shadowClaimed := 0b000#3 }
                done := none
                out := none }) ∧
          (s.dec.byteIndex = 1#16 → len ≠ 0#16 → len.toNat ≤ s.params.cap → deny = 0b000#3 →
            exec (.pat (.length b deny)) s =
              .next
                { s with
                  dec :=
                    { s.dec with
                      pendingLength := len, fieldKind := .data, activeChannel := .one .a, byteIndex := 0#16,
                      error := 0b000#3, shadowClaimed := 0b111#3 }
                  done := none
                  out := none }) ∧
            (s.dec.byteIndex = 1#16 → len ≠ 0#16 → (s.params.cap < len.toNat ∨ deny ≠ 0b000#3) →
              exec (.pat (.length b deny)) s =
                .next
                  { s with
                    dec :=
                      { s.dec with
                        pendingLength := len, fieldKind := .data, activeChannel := .one .a, byteIndex := 0#16,
                        error := 0b010#3, shadowClaimed := 0b000#3 }
                    done := none
                    out := none })

/-- 42_decoder_pattern.md R106: a sample byte is stored in the shadow bank unless in drain, and counted; the index is in
range. -/
def Obligations.DataByteStep : Prop :=
  ∀ (s : State) (b : Byte), s.legal = true → s.dec.messageKind = .pattern → s.dec.fieldKind = .data →
    ∃ ch, s.dec.activeChannel = .one ch ∧ s.dec.byteIndex.toNat < s.dec.pendingLength.toNat ∧
      (s.dec.error = 0b000#3 → s.dec.byteIndex.toNat < s.params.cap) ∧
        exec (.pat (.data b)) s =
          .next
            { s with
              mem :=
                if s.dec.error = 0b000#3 then s.mem.write (cellKey (1#1 - s.store.liveSel) ch s.dec.byteIndex.toNat) b
                else s.mem
              dec :=
                if s.dec.byteIndex.toNat + 1 = s.dec.pendingLength.toNat then
                  { s.dec with fieldKind := .delimiter, byteIndex := 0#16 }
                else { s.dec with byteIndex := s.dec.byteIndex + 1#16 }
              done := none
              out := none }

/-- 20_memory.md R41, R42 and 42_decoder_pattern.md R106: after a sample byte, the byte of the shadow bank at the active
channel and `byte_index` reads as the byte sent, and every other byte of memory reads as before; in drain every byte
does. -/
def Obligations.DataByteMemoryFrame : Prop :=
  ∀ (s t : State) (b : Byte), exec (.pat (.data b)) s = .next t → ∀ (k : Bank) (ch : Channel) (i : Nat),
    memRead t k ch i =
      if s.dec.error = 0b000#3 ∧ k = 1#1 - s.store.liveSel ∧ s.dec.activeChannel = .one ch ∧ i = s.dec.byteIndex.toNat
      then .ok b
      else memRead s k ch i

/-- 42_decoder_pattern.md R107, R108: a good delimiter after A or B moves to the next channel, in drain or not. -/
def Obligations.GoodDelimiterMovesOn : Prop :=
  ∀ (s : State) (ch : Channel), s.legal = true → s.dec.messageKind = .pattern → s.dec.fieldKind = .delimiter →
    (s.dec.activeChannel = .one .a ∧ ch = .b ∨ s.dec.activeChannel = .one .b ∧ ch = .c) →
      exec (.pat (.delimiter 0x55#8)) s =
        .next
          { s with
            dec :=
              { s.dec with
                activeChannel := .one ch
                byteIndex := 0#16
                fieldKind := if s.dec.pendingLength = 0#16 then .delimiter else .data }
            done := none
            out := none }

/-- 42_decoder_pattern.md R109: a wrong delimiter, in drain or not, adds BadDelimiter, releases the claim and ends the
message; the store and the memory stay as they are. -/
def Obligations.BadDelimiterRejects : Prop :=
  ∀ (s : State) (b : Byte), s.legal = true → s.dec.messageKind = .pattern → s.dec.fieldKind = .delimiter → b ≠ 0x55#8 →
    exec (.pat (.delimiter b)) s =
      .next
        { s with
          dec := DecoderState.initial
          lastError := if s.dec.error = 0b000#3 then 0b100#3 else 0b110#3
          done := some { kind := .pattern, flags := if s.dec.error = 0b000#3 then 0b100#3 else 0b110#3 }
          out := none }

/-- 42_decoder_pattern.md R110: the third good delimiter commits `pending_length` and the filled bank and restarts the
period, or, in drain, only ends the message. -/
def Obligations.LastDelimiterEndsMessage : Prop :=
  ∀ s : State, s.legal = true → s.dec.messageKind = .pattern → s.dec.fieldKind = .delimiter →
    s.dec.activeChannel = .one .c →
      (s.dec.error = 0b000#3 →
        exec (.pat (.delimiter 0x55#8)) s =
          .next
            { s with
              dec := DecoderState.initial
              store :=
                { s.store with
                  liveSel := 1#1 - s.store.liveSel, sampleCount := s.dec.pendingLength, playIndex := 0#16 }
              lastError := 0b000#3
              done := some { kind := .pattern, flags := 0b000#3 }
              out := none }) ∧
        (s.dec.error ≠ 0b000#3 →
          exec (.pat (.delimiter 0x55#8)) s =
            .next
              { s with
                dec := DecoderState.initial
                lastError := 0b010#3
                done := some { kind := .pattern, flags := 0b010#3 }
                out := none })

/-- 42_decoder_pattern.md R105: in drain a byte step changes neither the store nor the memory, and nothing is claimed. -/
def Obligations.DrainStoresNothing : Prop :=
  ∀ (s t : State) (i : Instr), i.onStream = true → s.dec.messageKind = .pattern → s.dec.error ≠ 0b000#3 →
    exec i s = .next t → t.store = s.store ∧ t.mem = s.mem ∧ t.dec.shadowClaimed = 0b000#3

/-! ### The consumer -/

/-- 44_consumer.md R139: a tick reads the three samples at `play_index` of the live bank, puts out their scaled words and
advances `play_index`; nothing else changes. It cannot fail: in a state of the invariant the three reads answer. -/
def Obligations.TickReadsAndAdvances : Prop :=
  (∀ s : State, StateInv s → s.legal = true ∧ ∀ ch, ∃ v, memRead s s.store.liveSel ch s.store.playIndex.toNat = .ok v) ∧
    ∀ (s : State) (a b c : Byte), s.legal = true →
      memRead s s.store.liveSel .a s.store.playIndex.toNat = .ok a →
        memRead s s.store.liveSel .b s.store.playIndex.toNat = .ok b →
          memRead s s.store.liveSel .c s.store.playIndex.toNat = .ok c →
            ∃ o : TickOut,
              exec .tick s =
                  .next
                    { s with
                      store :=
                        { s.store with
                          playIndex := BitVec.ofNat 16 ((s.store.playIndex.toNat + 1) % s.store.sampleCount.toNat) }
                      done := none
                      out := some o } ∧
                o = { amplitude := s.store.amplitude, sampleA := a, sampleB := b, sampleC := c } ∧
                  o.word .a = Config.scale s.store.amplitude a ∧ o.word .b = Config.scale s.store.amplitude b ∧
                    o.word .c = Config.scale s.store.amplitude c

/-- 44_consumer.md R140: the advance does not wrap, is in range, and is an increment with a return to 0. -/
def Obligations.TickAdvanceStaysInRange : Prop :=
  ∀ s t : State, exec .tick s = .next t →
    t.store.playIndex.toNat < t.store.sampleCount.toNat ∧
      (s.store.playIndex.toNat + 1 < s.store.sampleCount.toNat →
        t.store.playIndex.toNat = s.store.playIndex.toNat + 1) ∧
        (s.store.playIndex.toNat + 1 = s.store.sampleCount.toNat → t.store.playIndex = 0#16)

/-- The model's choice of log 6 (93_implementation_defined.md U7 allows it): a tick that would read a byte never written
stops with a fault. -/
def Obligations.TickOnUnwrittenSampleFaults : Prop :=
  ∀ (s : State) (ch : Channel), s.legal = true → ¬written s s.store.liveSel ch s.store.playIndex.toNat →
    exec .tick s = .fault .unwrittenSample

/-- 44_consumer.md R142, with only ticks: the tick number `k` (from 0) reads the sample `(play_index + k) mod
sample_count` of each channel. -/
def Obligations.TicksPlayThePattern : Prop :=
  ∀ (s : State) (k : Nat) (rest : List Event), StateInv s → s.events = List.replicate (k + 1) .tick ++ rest →
    ∃ t o, run (k + 1) s = .next t ∧ t.out = some o ∧ o.amplitude = s.store.amplitude ∧
      (∀ ch,
        memRead s s.store.liveSel ch ((s.store.playIndex.toNat + k) % s.store.sampleCount.toNat) = .ok (o.sample ch)) ∧
        t.store = { s.store with playIndex := advanceBy s.store.playIndex s.store.sampleCount (k + 1) } ∧
          t.dec = s.dec ∧ t.mem = s.mem

/-- 10_state.md R27, R28: in a state of the invariant each buffer of the read view has `sample_count` samples, all of
them written, and `play_index` is one of their indices. -/
def Obligations.ReadViewIsWhole : Prop :=
  ∀ s : State, StateInv s →
    1 ≤ (currentPattern s).sampleCount.toNat ∧ (currentPattern s).sampleCount.toNat ≤ s.params.cap ∧
      (currentPattern s).playIndex.toNat < (currentPattern s).sampleCount.toNat ∧
        ∀ buffer,
          (buffer = (currentPattern s).samplesA ∨ buffer = (currentPattern s).samplesB ∨
            buffer = (currentPattern s).samplesC) →
            buffer.length = (currentPattern s).sampleCount.toNat ∧ none ∉ buffer

/-- 44_consumer.md R135: two states with equal read views are the same to the consumer: a tick puts out the same and
leaves equal read views. -/
def Obligations.TickSeesOnlyTheReadView : Prop :=
  ∀ s₁ s₂ t₁ : State, s₁.legal = true → s₂.legal = true → currentPattern s₁ = currentPattern s₂ →
    exec .tick s₁ = .next t₁ →
      ∃ t₂, exec .tick s₂ = .next t₂ ∧ t₂.out = t₁.out ∧ currentPattern t₂ = currentPattern t₁

/-! ### Reset -/

/-- 70_reset_and_hazards.md R170 to R172 (decisions D14, D15, D23 of the spec): RESET completes from every state, legal or
not, gives the reset state, writes the three reset samples and leaves every other byte of memory. -/
def Obligations.ResetFromEveryState : Prop :=
  ∀ s : State, ∃ t, exec .reset s = .next t ∧ t.dec = DecoderState.initial ∧
    t.store =
        { frequency := s.params.resetFrequency, amplitude := 0#16, liveSel := 0#1, sampleCount := 1#16,
          playIndex := 0#16 } ∧
      t.lastError = 0b000#3 ∧ t.params = s.params ∧ t.done = none ∧ t.out = none ∧ t.events = s.events ∧
        ∀ (k : Bank) (ch : Channel) (i : Nat),
          memRead t k ch i = if k = 0#1 ∧ i = 0 then .ok 0x00#8 else memRead s k ch i

/-- 70_reset_and_hazards.md R173: a reset wins over the byte and the tick that coincide with it: they change nothing and
the byte is lost. -/
def Obligations.ResetWinsOverCoincidentEvents : Prop :=
  ∀ (s : State) (lost : Option Byte) (lostTick : Bool) (rest : List Event), s.events = .reset lost lostTick :: rest →
    step s = exec .reset { s with events := rest }

/-- 10_state.md R34, 70_reset_and_hazards.md R171 (decisions D14, D15): the reset state of every instance; only
`State.reset`'s parameters are the model's choice (logs 8 and 9). -/
def Obligations.ResetStateValues : Prop :=
  DecoderState.initial =
      { messageKind := .none, fieldKind := .none, activeChannel := .all, byteIndex := 0#16, error := 0b000#3,
        pendingLength := 0#16, pendingFrequency := 0#16, pendingAmplitude := 0#16, shadowClaimed := 0b000#3 } ∧
    State.reset = State.resetOf Config.params ∧
      ∀ p : Params,
        (State.resetOf p).dec = DecoderState.initial ∧
          (State.resetOf p).store =
              { frequency := p.resetFrequency, amplitude := 0#16, liveSel := 0#1, sampleCount := 1#16,
                playIndex := 0#16 } ∧
            (State.resetOf p).lastError = 0b000#3 ∧ (State.resetOf p).params = p ∧ (State.resetOf p).events = [] ∧
              ∀ ch, memRead (State.resetOf p) 0#1 ch 0 = .ok 0x00#8

/-- 43_pattern_store.md R128: the reset state of every instance meets the invariant. -/
def Obligations.ResetMeetsInvariant : Prop := StateInv State.reset ∧ ∀ p : Params, StateInv (State.resetOf p)

/-! ### The whole machine -/

/-- 20_memory.md R52 and 10_state.md R14: a step is the instruction that the next event makes at the decoder position, on
the state from which the event has been taken. -/
def Obligations.StepRunsDecodedInstruction : Prop :=
  ∀ (s : State) (rest : List Event),
    (∀ (b : Byte) (deny : Bits3) (i : Instr), s.events = .byte b deny :: rest →
      decode s.dec.messageKind s.dec.fieldKind deny [b] = .ok (i, []) → step s = exec i { s with events := rest }) ∧
      (s.events = .tick :: rest → step s = exec .tick { s with events := rest })

/-- 43_pattern_store.md R128, 10_state.md R33: every step keeps the invariant. -/
def Obligations.StepKeepsInvariant : Prop := ∀ s t : State, StateInv s → step s = .next t → StateInv t

/-- 41_decoder_idle_short.md R85, 44_consumer.md R139, 70_reset_and_hazards.md R187: from every state of the invariant,
whatever the next event is, the step completes and takes exactly that event. -/
def Obligations.StepAlwaysCompletes : Prop :=
  ∀ (s : State) (e : Event) (rest : List Event), StateInv s → s.events = e :: rest →
    ∃ t, step s = .next t ∧ t.events = rest ∧ t.params = s.params

/-- The model's choice of log 3: with no event there is no step (70_reset_and_hazards.md R189). -/
def Obligations.NoEventNoStep : Prop := ∀ s : State, s.events = [] → step s = .refused .noEvent

/-- 10_state.md R33 (with the sentences on the `pending_` registers below its table) and R28 (a), (b): the states that the
model takes as legal, row by row. -/
def Obligations.LegalStatesAreTheTable : Prop :=
  ∀ s : State,
    s.legal = true ↔
      (1 ≤ s.store.sampleCount.toNat ∧ s.store.sampleCount.toNat ≤ s.params.cap ∧
        s.store.playIndex.toNat < s.store.sampleCount.toNat) ∧
        -- Idle
        ((s.dec = DecoderState.initial) ∨
          -- Frequency, Amplitude
          (∃ lo i, (i = 0#16 ∧ lo = 0#8 ∨ i = 1#16) ∧
            (s.dec =
                { DecoderState.initial with
                  messageKind := .frequency, byteIndex := i, pendingFrequency := joinBytes 0x00#8 lo } ∨
              s.dec =
                { DecoderState.initial with
                  messageKind := .amplitude, byteIndex := i, pendingAmplitude := joinBytes 0x00#8 lo } ∨
              -- Pattern/Length
              s.dec =
                { DecoderState.initial with
                  messageKind := .pattern, fieldKind := .length, byteIndex := i
                  pendingLength := joinBytes 0x00#8 lo })) ∨
          -- Pattern/Data and Pattern/Delimiter, filling and drain
          (∃ ch fk i n err cl,
            s.dec =
                { DecoderState.initial with
                  messageKind := .pattern, fieldKind := fk, activeChannel := .one ch, byteIndex := i
                  pendingLength := n, error := err, shadowClaimed := cl } ∧
              (fk = .data ∧ i.toNat < n.toNat ∨ fk = .delimiter ∧ i = 0#16) ∧
                (err = 0b000#3 ∧ cl = 0b111#3 ∧ 1 ≤ n.toNat ∧ n.toNat ≤ s.params.cap ∨
                  err = 0b010#3 ∧ cl = 0b000#3)))

/-- 93_implementation_defined.md U9, 70_reset_and_hazards.md R187: a state outside the tables of R33 and R28 is refused by
every instruction but RESET. -/
def Obligations.IllegalStateRefused : Prop :=
  ∀ (s : State) (i : Instr), s.legal = false → i ≠ .reset → exec i s = .refused .illegalState

/-- The model's choice of log 5: an instruction of the stream is refused by name at a legal position where its byte is
not read, and an ill-formed UNK everywhere. -/
def Obligations.OtherPositionsRefused : Prop :=
  ∀ (s : State) (i : Instr), s.legal = true → i.onStream = true →
    (i.wellFormed = true → (s.dec.messageKind, s.dec.fieldKind) ≠ i.readAt → exec i s = .refused .wrongPosition) ∧
      (i.wellFormed = false → exec i s = .refused .illFormed)

/-- 10_state.md R22 to R29 ("written by"), 43_pattern_store.md R127: which instructions may write each register of the
store, the memory, and `last_error`; nothing writes the parameters or the events still to come. -/
def Obligations.OnlyTheirWritersWriteRegisters : Prop :=
  ∀ (s t : State) (i : Instr), exec i s = .next t →
    (t.store.frequency = s.store.frequency ∨ i = .reset ∨ ∃ b, i = .freq (.payload b) ∧ s.dec.byteIndex = 1#16) ∧
      (t.store.amplitude = s.store.amplitude ∨ i = .reset ∨ ∃ b, i = .amp (.payload b) ∧ s.dec.byteIndex = 1#16) ∧
        (t.store.liveSel = s.store.liveSel ∧ t.store.sampleCount = s.store.sampleCount ∨
          i = .reset ∨ i = .pat (.delimiter 0x55#8) ∧ s.dec.activeChannel = .one .c ∧ s.dec.error = 0b000#3 ∧
            t.store.sampleCount = s.dec.pendingLength) ∧
          (t.store.playIndex = s.store.playIndex ∨ i = .reset ∨ i = .tick ∨
            i = .pat (.delimiter 0x55#8) ∧ s.dec.activeChannel = .one .c ∧ s.dec.error = 0b000#3 ∧
              t.store.playIndex = 0#16) ∧
            (t.lastError = s.lastError ∨ i = .reset ∨
              ∃ e, t.done = some { kind := s.dec.messageKind, flags := e } ∧ t.lastError = e) ∧
              t.params = s.params ∧ t.events = s.events

/-- 20_memory.md R41, R42, R44: every instruction but a data byte and RESET leaves every byte of memory as it was. -/
def Obligations.OtherInstructionsStoreNothing : Prop :=
  ∀ (s t : State) (i : Instr), exec i s = .next t → i ≠ .reset → (∀ b, i ≠ .pat (.data b)) →
    ∀ (k : Bank) (ch : Channel) (j : Nat), memRead t k ch j = memRead s k ch j

/-- 44_consumer.md R143, 43_pattern_store.md R124, 20_memory.md R42: no byte step changes a byte of the bank the consumer
reads, so no claimed, released or half-filled buffer is ever the live one. -/
def Obligations.LiveBankNeverWrittenByDecoder : Prop :=
  ∀ (s t : State) (i : Instr), i.onStream = true → exec i s = .next t →
    ∀ (ch : Channel) (j : Nat), memRead t s.store.liveSel ch j = memRead s s.store.liveSel ch j

/-- 42_decoder_pattern.md R112, 10_state.md R21, R29, R30: a step that reports an end of message has reset the Decoder
State and latched the flags it reports; every other byte step or tick reports nothing and keeps `last_error`. -/
def Obligations.EndOfMessageLatchesAndResets : Prop :=
  ∀ (s t : State) (i : Instr), exec i s = .next t → i ≠ .reset →
    (∃ e, t.done = some { kind := s.dec.messageKind, flags := e } ∧ t.lastError = e ∧ t.dec = DecoderState.initial) ∨
      (t.done = none ∧ t.lastError = s.lastError)

/-- 60_exceptions.md R150: the flag values a message can end with, and that UnknownType is the rejected byte alone. -/
def Obligations.EndedMessageFlags : Prop :=
  ∀ (s t : State) (i : Instr) (d : DoneEvent), exec i s = .next t → t.done = some d →
    d.flags ∈ [0b000#3, 0b001#3, 0b010#3, 0b100#3, 0b110#3] ∧ (d.flags = 0b001#3 ↔ d.kind = .none)

/-- 60_exceptions.md R145, R152, 43_pattern_store.md R127: a message that ends in error leaves the store registers and
every byte of memory as they were before its last byte. -/
def Obligations.RejectedMessageLeavesStore : Prop :=
  ∀ (s t : State) (i : Instr) (d : DoneEvent), exec i s = .next t → t.done = some d → d.flags ≠ 0b000#3 →
    t.store = s.store ∧ t.mem = s.mem ∧ t.dec = DecoderState.initial

/-- 10_state.md R20, 43_pattern_store.md R131: in a legal state the shadow buffers are all claimed, exactly in the data
and delimiter fields of a pattern message without error, or all free. -/
def Obligations.ClaimIsAllOrNothing : Prop :=
  ∀ s : State, s.legal = true →
    (s.dec.shadowClaimed = 0b111#3 ∨ s.dec.shadowClaimed = 0b000#3) ∧
      (s.dec.shadowClaimed = 0b111#3 ↔
        s.dec.messageKind = .pattern ∧ (s.dec.fieldKind = .data ∨ s.dec.fieldKind = .delimiter) ∧
          s.dec.error = 0b000#3)

/-- 20_memory.md R54, 43_pattern_store.md R121: the commit publishes the shadow bank: afterwards the consumer's sample `i`
of a channel is the byte the shadow bank held there, for every `i` below the new `sample_count`. -/
def Obligations.CommitPublishesShadowBank : Prop :=
  ∀ s t : State, exec (.pat (.delimiter 0x55#8)) s = .next t → s.dec.activeChannel = .one .c →
    s.dec.error = 0b000#3 →
      t.store.sampleCount = s.dec.pendingLength ∧
        ∀ ch i, i < s.dec.pendingLength.toNat → liveSample t ch i = (memRead s (1#1 - s.store.liveSel) ch i).toOption

/-- 60_exceptions.md R155, its row of the decoder's reads: what becomes of the Decoder State, and what a byte step reports,
does not depend on the store registers or the sample memory. Byte steps from two states with the same Decoder State and CAP
give the same Decoder State and the same report, and the same `last_error` where they report. Where the step writes is not
compared: the decoder does read `live_sel`, to find the shadow bank. -/
def Obligations.DecoderStateAndReportIndependentOfStore : Prop :=
  ∀ (s₁ s₂ t₁ : State) (i : Instr), i.onStream = true → s₁.legal = true → s₂.legal = true → s₁.dec = s₂.dec →
    s₁.params.cap = s₂.params.cap → exec i s₁ = .next t₁ →
      ∃ t₂, exec i s₂ = .next t₂ ∧ t₂.dec = t₁.dec ∧ t₂.done = t₁.done ∧
        (t₁.done ≠ none → t₂.lastError = t₁.lastError)

/-- 42_decoder_pattern.md R116, 43_pattern_store.md R127: the read view after a byte step is the one before, but for the
two setters and the commit. -/
def Obligations.ReadViewChangesOnlyAtMessageEnd : Prop :=
  ∀ (s t : State) (i : Instr), i.onStream = true → exec i s = .next t →
    currentPattern t = currentPattern s ∨
      (t.done = some { kind := .frequency, flags := 0b000#3 } ∧
        currentPattern t = { currentPattern s with frequency := t.store.frequency }) ∨
        (t.done = some { kind := .amplitude, flags := 0b000#3 } ∧
          currentPattern t = { currentPattern s with amplitude := t.store.amplitude }) ∨
          (t.done = some { kind := .pattern, flags := 0b000#3 } ∧ t.store.frequency = s.store.frequency ∧
            t.store.amplitude = s.store.amplitude ∧ t.store.playIndex = 0#16)

/-! ### Whole messages, with ticks among their bytes -/

/-- 41_decoder_idle_short.md R92: a whole FREQ message sets `frequency` to its data, with any ticks among its bytes. -/
def Obligations.FreqMessageSetsFrequency : Prop :=
  ∀ (s : State) (v : Word) (e rest : List Event), StateInv s → s.dec.messageKind = .none → carries (.freq v) e →
    s.events = e ++ rest →
      ∃ t, run e.length s = .next t ∧
        t.store =
            { s.store with
              frequency := v, playIndex := advanceBy s.store.playIndex s.store.sampleCount (tickCount e) } ∧
          t.mem = s.mem ∧ t.dec = DecoderState.initial ∧ t.lastError = 0b000#3 ∧
            t.done = some { kind := .frequency, flags := 0b000#3 } ∧ t.events = rest

/-- 41_decoder_idle_short.md R93: a whole AMP message sets `amplitude` to its data, with any ticks among its bytes. -/
def Obligations.AmpMessageSetsAmplitude : Prop :=
  ∀ (s : State) (v : Word) (e rest : List Event), StateInv s → s.dec.messageKind = .none → carries (.amp v) e →
    s.events = e ++ rest →
      ∃ t, run e.length s = .next t ∧
        t.store =
            { s.store with
              amplitude := v, playIndex := advanceBy s.store.playIndex s.store.sampleCount (tickCount e) } ∧
          t.mem = s.mem ∧ t.dec = DecoderState.initial ∧ t.lastError = 0b000#3 ∧
            t.done = some { kind := .amplitude, flags := 0b000#3 } ∧ t.events = rest

/-- 42_decoder_pattern.md R114: an accepted PAT message, with any ticks among its bytes: the read view is the pattern
sent, the period restarts, the two scalars stay. -/
def Obligations.AcceptedPatternIsCommitted : Prop :=
  ∀ (s : State) (a b c : List Byte) (e rest : List Event), StateInv s → s.dec.messageKind = .none → carries (.pat a b c) e →
    b.length = a.length → c.length = a.length → 1 ≤ a.length → a.length ≤ s.params.cap → drawAt 2 e = some 0b000#3 →
      s.events = e ++ rest →
        ∃ t, run e.length s = .next t ∧
          t.store =
              { s.store with
                liveSel := 1#1 - s.store.liveSel, sampleCount := BitVec.ofNat 16 a.length, playIndex := 0#16 } ∧
            t.store.sampleCount.toNat = a.length ∧
              channelSamples t .a = a.map some ∧ channelSamples t .b = b.map some ∧ channelSamples t .c = c.map some ∧
                t.dec = DecoderState.initial ∧ t.lastError = 0b000#3 ∧
                  t.done = some { kind := .pattern, flags := 0b000#3 } ∧ t.events = rest

/-- 42_decoder_pattern.md R115: a rejected PAT message of every form (length 0, claim refused, a wrong delimiter in any of
the three places, in drain or not), with any ticks among its bytes: the store and the consumer's samples are what they
were apart from the ticks' advances, the decoder is Idle, and the flags are those of the table. -/
def Obligations.RejectedPatternChangesNothing : Prop :=
  ∀ (s : State) (m : Message) (n : Nat) (bad : Bool) (deny : Bits3) (e rest : List Event), StateInv s →
    s.dec.messageKind = .none → m.wellFormed = true → carries m e → drawAt 2 e = some deny → s.events = e ++ rest →
      ((∃ a b c, m = .pat a b c ∧ n = a.length ∧ bad = false ∧ claimRefused s n deny) ∨
        ∃ a b c d, (m = .patBadA a d ∨ m = .patBadB a b d ∨ m = .patBadC a b c d) ∧ n = a.length ∧ bad = true) →
        ∃ t, run e.length s = .next t ∧ playsOn (tickCount e) s t ∧ t.dec = DecoderState.initial ∧
          (bad = false → t.lastError = 0b010#3) ∧
            (bad = true → claimRefused s n deny → t.lastError = 0b110#3) ∧
              (bad = true → ¬claimRefused s n deny → t.lastError = 0b100#3) ∧
                t.done = some { kind := .pattern, flags := t.lastError } ∧ t.events = rest

/-- 43_pattern_store.md R129: sending an accepted pattern twice leaves the read view that sending it once left. -/
def Obligations.ResendingAPatternIsIdempotent : Prop :=
  ∀ (s : State) (a b c : List Byte) (e₁ e₂ rest : List Event), StateInv s → s.dec.messageKind = .none →
    carries (.pat a b c) e₁ → carries (.pat a b c) e₂ → b.length = a.length → c.length = a.length → 1 ≤ a.length →
      a.length ≤ s.params.cap → drawAt 2 e₁ = some 0b000#3 → drawAt 2 e₂ = some 0b000#3 →
        s.events = e₁ ++ (e₂ ++ rest) →
          ∃ t₁ t₂, run e₁.length s = .next t₁ ∧ run e₂.length t₁ = .next t₂ ∧ currentPattern t₂ = currentPattern t₁ ∧
            t₂.store.liveSel = s.store.liveSel

/-- 44_consumer.md R142, 42_decoder_pattern.md R116: while no pattern commits and no reset occurs, playback goes on:
whatever bytes arrive, whole or partial messages, good or bad, the bank, the count and the samples stay, and the index
moves with the ticks alone. -/
def Obligations.PlaybackUndisturbedUntilCommit : Prop :=
  ∀ (s : State) (e rest : List Event), StateInv s → noReset e = true → s.events = e ++ rest →
    (∀ k t, 1 ≤ k → k ≤ e.length → run k s = .next t → t.done ≠ some { kind := .pattern, flags := 0b000#3 }) →
      ∃ t, run e.length s = .next t ∧ t.events = rest ∧ t.store.liveSel = s.store.liveSel ∧
        t.store.sampleCount = s.store.sampleCount ∧
          t.store.playIndex = advanceBy s.store.playIndex s.store.sampleCount (tickCount e) ∧
            ∀ ch i, i < s.store.sampleCount.toNat → liveSample t ch i = liveSample s ch i

/-- 41_decoder_idle_short.md R89: a run of unassigned bytes in Idle is that many rejected one-byte messages: the decoder is
Idle after each, `last_error` is UnknownType, and nothing else changes. -/
def Obligations.UnassignedBytesAreRejectedOneByOne : Prop :=
  ∀ (s : State) (bytes : List Byte) (deny : Bits3) (rest : List Event), StateInv s → s.dec.messageKind = .none →
    (∀ t ∈ bytes, t ≠ 0x01#8 ∧ t ≠ 0x02#8 ∧ t ≠ 0x03#8) → bytes ≠ [] →
      s.events = bytes.map (fun t => Event.byte t deny) ++ rest →
        ∃ t, run bytes.length s = .next t ∧ t.dec = DecoderState.initial ∧ t.store = s.store ∧ t.mem = s.mem ∧
          t.lastError = 0b001#3 ∧ t.done = some { kind := .none, flags := 0b001#3 } ∧ t.events = rest
end

