-- ==== Sys2Proof/Laws/Shape.lean ====
section
/-! SUPPORT. The table of 10_state.md R33 as an inductive with one constructor per row, and the proof that the model's
check is that table. Later proofs take a legal state apart with `cases` on it. -/

namespace Sys2Proof.Machine

/-! ### Fields of two bytes -/

@[simp] theorem loByte_joinBytes (hi lo : Byte) : loByte (joinBytes hi lo) = lo :=
  BitVec.extractLsb'_append_eq_right

@[simp] theorem hiByte_joinBytes (hi lo : Byte) : hiByte (joinBytes hi lo) = hi :=
  BitVec.extractLsb'_append_eq_left

@[simp] theorem hiByte_zero : hiByte 0#16 = 0#8 := by decide

@[simp] theorem loByte_zero : loByte 0#16 = 0#8 := by decide

theorem joinBytes_toNat (hi lo : Byte) : (joinBytes hi lo).toNat = lo.toNat + 256 * hi.toNat := by
  simp only [joinBytes, BitVec.toNat_append]
  rw [← Nat.shiftLeft_add_eq_or_of_lt lo.isLt, Nat.shiftLeft_eq]
  omega

theorem loByte_toNat (v : Word) : (loByte v).toNat = v.toNat % 256 := by
  simp [loByte, BitVec.extractLsb'_toNat]

theorem hiByte_toNat (v : Word) : (hiByte v).toNat = v.toNat / 256 := by
  have := v.isLt
  simp only [hiByte, BitVec.extractLsb'_toNat, Nat.shiftRight_eq_div_pow]
  omega

@[simp] theorem joinBytes_hiByte_loByte (v : Word) : joinBytes (hiByte v) (loByte v) = v := by
  apply BitVec.eq_of_toNat_eq
  rw [joinBytes_toNat, loByte_toNat, hiByte_toNat]
  omega

theorem eq_joinBytes_of_hiByte {v : Word} (h : hiByte v = 0#8) : v = joinBytes 0#8 (loByte v) := by
  rw [← h, joinBytes_hiByte_loByte]

/-! ### The rows of R33 -/

/-- The rows of R33; a row whose `byte_index` is 0 or 1 is two constructors. -/
inductive Shape (cap : Nat) : DecoderState → Prop
  | idle : Shape cap DecoderState.initial
  | freq0 : Shape cap { DecoderState.initial with messageKind := .frequency }
  | freq1 (lo : Byte) :
    Shape cap
      { DecoderState.initial with messageKind := .frequency, byteIndex := 1#16, pendingFrequency := joinBytes 0#8 lo }
  | amp0 : Shape cap { DecoderState.initial with messageKind := .amplitude }
  | amp1 (lo : Byte) :
    Shape cap
      { DecoderState.initial with messageKind := .amplitude, byteIndex := 1#16, pendingAmplitude := joinBytes 0#8 lo }
  | len0 : Shape cap { DecoderState.initial with messageKind := .pattern, fieldKind := .length }
  | len1 (lo : Byte) :
    Shape cap
      { DecoderState.initial with
        messageKind := .pattern, fieldKind := .length, byteIndex := 1#16, pendingLength := joinBytes 0#8 lo }
  | dataFill (ch : Channel) (i n : Word) (hi : i.toNat < n.toNat) (hn : n.toNat ≤ cap) :
    Shape cap
      { DecoderState.initial with
        messageKind := .pattern, fieldKind := .data, activeChannel := .one ch, byteIndex := i, pendingLength := n,
        shadowClaimed := 0b111#3 }
  | dataDrain (ch : Channel) (i n : Word) (hi : i.toNat < n.toNat) :
    Shape cap
      { DecoderState.initial with
        messageKind := .pattern, fieldKind := .data, activeChannel := .one ch, byteIndex := i, pendingLength := n,
        error := Flag.allocationFailure }
  | delimFill (ch : Channel) (n : Word) (h1 : 1 ≤ n.toNat) (hn : n.toNat ≤ cap) :
    Shape cap
      { DecoderState.initial with
        messageKind := .pattern, fieldKind := .delimiter, activeChannel := .one ch, pendingLength := n,
        shadowClaimed := 0b111#3 }
  | delimDrain (ch : Channel) (n : Word) :
    Shape cap
      { DecoderState.initial with
        messageKind := .pattern, fieldKind := .delimiter, activeChannel := .one ch, pendingLength := n,
        error := Flag.allocationFailure }

theorem partialField_cases {idx pending : Word} (h : partialField idx pending = true) :
    (idx = 0#16 ∧ pending = 0#16) ∨ (idx = 1#16 ∧ ∃ lo, pending = joinBytes 0#8 lo) := by
  simp only [partialField, Bool.or_eq_true, Bool.and_eq_true, beq_iff_eq] at h
  rcases h with h | ⟨h, h'⟩
  · exact .inl h
  · exact .inr ⟨h, _, eq_joinBytes_of_hiByte h'⟩

theorem Shape.of_shape {cap : Nat} {d : DecoderState} (h : d.shape cap = true) : Shape cap d := by
  obtain ⟨mk, fk, ch, idx, err, pl, pf, pa, cl⟩ := d
  cases mk <;> simp only [DecoderState.shape] at h
  · rw [beq_iff_eq] at h
    rw [h]
    exact .idle
  · simp only [DecoderState.patternShape, Bool.and_eq_true, beq_iff_eq] at h
    obtain ⟨⟨h, rfl⟩, rfl⟩ := h
    cases fk <;> simp only at h
    · simp at h
    · simp only [DecoderState.quiet, Bool.and_eq_true, beq_iff_eq] at h
      obtain ⟨⟨⟨rfl, rfl⟩, rfl⟩, h⟩ := h
      rcases partialField_cases h with ⟨rfl, rfl⟩ | ⟨rfl, lo, rfl⟩
      · exact .len0
      · exact .len1 lo
    · simp only [DecoderState.filling, DecoderState.draining, Bool.and_eq_true, Bool.or_eq_true, bne_iff_ne,
        decide_eq_true_eq, beq_iff_eq] at h
      obtain ⟨⟨hch, hi⟩, h⟩ := h
      cases ch with
      | all => exact absurd rfl hch
      | one ch =>
        rcases h with ⟨⟨⟨rfl, rfl⟩, _⟩, hn⟩ | ⟨rfl, rfl⟩
        · exact .dataFill ch idx pl hi hn
        · exact .dataDrain ch idx pl hi
    · simp only [DecoderState.filling, DecoderState.draining, Bool.and_eq_true, Bool.or_eq_true, bne_iff_ne,
        decide_eq_true_eq, beq_iff_eq] at h
      obtain ⟨⟨hch, rfl⟩, h⟩ := h
      cases ch with
      | all => exact absurd rfl hch
      | one ch =>
        rcases h with ⟨⟨⟨rfl, rfl⟩, h1⟩, hn⟩ | ⟨rfl, rfl⟩
        · exact .delimFill ch pl h1 hn
        · exact .delimDrain ch pl
  · simp only [DecoderState.quiet, Bool.and_eq_true, beq_iff_eq] at h
    obtain ⟨⟨⟨⟨rfl, ⟨rfl, rfl⟩, rfl⟩, h⟩, rfl⟩, rfl⟩ := h
    rcases partialField_cases h with ⟨rfl, rfl⟩ | ⟨rfl, lo, rfl⟩
    · exact .freq0
    · exact .freq1 lo
  · simp only [DecoderState.quiet, Bool.and_eq_true, beq_iff_eq] at h
    obtain ⟨⟨⟨⟨rfl, ⟨rfl, rfl⟩, rfl⟩, h⟩, rfl⟩, rfl⟩ := h
    rcases partialField_cases h with ⟨rfl, rfl⟩ | ⟨rfl, lo, rfl⟩
    · exact .amp0
    · exact .amp1 lo

theorem Shape.shape {cap : Nat} {d : DecoderState} (h : Shape cap d) : d.shape cap = true := by
  cases h <;>
    simp_all [DecoderState.shape, DecoderState.patternShape, DecoderState.quiet, DecoderState.filling,
      DecoderState.draining, DecoderState.initial, partialField, Flag.none, Flag.allocationFailure]
  omega

/-- The model's check of the Decoder State is the table of R33. -/
theorem shape_iff {cap : Nat} {d : DecoderState} : d.shape cap = true ↔ Shape cap d := ⟨Shape.of_shape, Shape.shape⟩

/-- In Idle every working register has its initial value (R33). -/
theorem Shape.idle_eq {cap : Nat} {d : DecoderState} (h : Shape cap d) (hk : d.messageKind = .none) :
    d = DecoderState.initial := by
  cases h <;> simp_all

/-- In drain nothing is claimed (R105). -/
theorem Shape.claim_of_error {cap : Nat} {d : DecoderState} (h : Shape cap d) (he : d.error ≠ Flag.none) :
    d.shadowClaimed = 0b000#3 := by
  cases h <;> simp_all [DecoderState.initial, Flag.none]

/-- A state is legal when its Decoder State is a row of R33 and its store meets R28 (a) and (b). -/
theorem legal_iff {s : State} :
    s.legal = true ↔
      Shape s.params.cap s.dec ∧ 1 ≤ s.store.sampleCount.toNat ∧ s.store.sampleCount.toNat ≤ s.params.cap ∧
        s.store.playIndex.toNat < s.store.sampleCount.toNat := by
  simp [State.legal, PatternStore.inBounds, shape_iff, and_assoc]

end Sys2Proof.Machine
end

