-- ==== Sys2Proof/Laws/Decode.lean ====
section
/-! SUPPORT. Reading the stream: what each type byte selects, and what the two parsers of a field take. -/

namespace Sys2Proof

theorem lookupType_unassigned {t : Byte} (h : isUnassignedType t = true) : lookupType t = some .unk := by
  revert t
  decide

@[simp] theorem lookupType_pattern : lookupType Config.typePattern = some .pat := by decide

@[simp] theorem lookupType_frequency : lookupType Config.typeFrequency = some .freq := by decide

@[simp] theorem lookupType_amplitude : lookupType Config.typeAmplitude = some .amp := by decide

/-- A type byte is one of the three assigned ones or unassigned (R62). -/
theorem type_cases (t : Byte) :
    t = Config.typePattern ∨ t = Config.typeFrequency ∨ t = Config.typeAmplitude ∨ isUnassignedType t = true := by
  by_cases h₁ : t = Config.typePattern
  · exact .inl h₁
  · by_cases h₂ : t = Config.typeFrequency
    · exact .inr (.inl h₂)
    · by_cases h₃ : t = Config.typeAmplitude
      · exact .inr (.inr (.inl h₃))
      · exact .inr (.inr (.inr (by simp [isUnassignedType, h₁, h₂, h₃])))

@[simp] theorem decodeType_unassigned {t : Byte} (h : isUnassignedType t = true) : decodeType t = .ok (.unk t) := by
  simp [decodeType, lookupType_unassigned h]

@[simp] theorem decodeType_pattern : decodeType Config.typePattern = .ok (.pat .typeByte) := by decide

@[simp] theorem decodeType_frequency : decodeType Config.typeFrequency = .ok (.freq .typeByte) := by decide

@[simp] theorem decodeType_amplitude : decodeType Config.typeAmplitude = .ok (.amp .typeByte) := by decide

/-! ### Fields and blocks of a message -/

/-- Every length that fits the field is the sum of its two bytes (R67). -/
theorem ofNat_bytes {n : Nat} (h : n < 65536) :
    (loByte (BitVec.ofNat 16 n)).toNat + 256 * (hiByte (BitVec.ofNat 16 n)).toNat = n := by
  rw [Machine.loByte_toNat, Machine.hiByte_toNat, BitVec.toNat_ofNat]
  omega

theorem takeBlock_append {n : Nat} {a : List Byte} (h : a.length = n) (d : Byte) (rest : List Byte) :
    takeBlock n (a ++ d :: rest) = some (a, d, rest) := by
  subst h
  simp [takeBlock]

theorem takeBlock_some {n : Nat} {bytes a rest : List Byte} {d : Byte} (h : takeBlock n bytes = some (a, d, rest)) :
    a.length = n ∧ bytes = a ++ d :: rest := by
  unfold takeBlock at h
  split at h
  · simp at h
  · rename_i d' rest' hd
    simp only [Option.some.injEq, Prod.mk.injEq] at h
    obtain ⟨rfl, rfl, rfl⟩ := h
    have hl : n < bytes.length := by
      by_contra hge
      rw [List.drop_eq_nil_of_le (by omega)] at hd
      simp at hd
    constructor
    · simp; omega
    · rw [← hd, List.take_append_drop]

end Sys2Proof
end

