-- ==== Sys2Proof/Laws/State.lean ====
section
/-! SUPPORT. One lemma per field per named update of State: no later proof unfolds a record update. -/

namespace Sys2Proof.Machine

variable (s : State)

@[simp] theorem State.withDec_dec (x : DecoderState) : (s.withDec x).dec = x := rfl
@[simp] theorem State.withDec_store (x : DecoderState) : (s.withDec x).store = s.store := rfl
@[simp] theorem State.withDec_mem (x : DecoderState) : (s.withDec x).mem = s.mem := rfl
@[simp] theorem State.withDec_lastError (x : DecoderState) : (s.withDec x).lastError = s.lastError := rfl
@[simp] theorem State.withDec_params (x : DecoderState) : (s.withDec x).params = s.params := rfl
@[simp] theorem State.withDec_done (x : DecoderState) : (s.withDec x).done = s.done := rfl
@[simp] theorem State.withDec_out (x : DecoderState) : (s.withDec x).out = s.out := rfl
@[simp] theorem State.withDec_events (x : DecoderState) : (s.withDec x).events = s.events := rfl

@[simp] theorem State.withStore_dec (x : PatternStore) : (s.withStore x).dec = s.dec := rfl
@[simp] theorem State.withStore_store (x : PatternStore) : (s.withStore x).store = x := rfl
@[simp] theorem State.withStore_mem (x : PatternStore) : (s.withStore x).mem = s.mem := rfl
@[simp] theorem State.withStore_lastError (x : PatternStore) : (s.withStore x).lastError = s.lastError := rfl
@[simp] theorem State.withStore_params (x : PatternStore) : (s.withStore x).params = s.params := rfl
@[simp] theorem State.withStore_done (x : PatternStore) : (s.withStore x).done = s.done := rfl
@[simp] theorem State.withStore_out (x : PatternStore) : (s.withStore x).out = s.out := rfl
@[simp] theorem State.withStore_events (x : PatternStore) : (s.withStore x).events = s.events := rfl

@[simp] theorem State.withMem_dec (x : Memory) : (s.withMem x).dec = s.dec := rfl
@[simp] theorem State.withMem_store (x : Memory) : (s.withMem x).store = s.store := rfl
@[simp] theorem State.withMem_mem (x : Memory) : (s.withMem x).mem = x := rfl
@[simp] theorem State.withMem_lastError (x : Memory) : (s.withMem x).lastError = s.lastError := rfl
@[simp] theorem State.withMem_params (x : Memory) : (s.withMem x).params = s.params := rfl
@[simp] theorem State.withMem_done (x : Memory) : (s.withMem x).done = s.done := rfl
@[simp] theorem State.withMem_out (x : Memory) : (s.withMem x).out = s.out := rfl
@[simp] theorem State.withMem_events (x : Memory) : (s.withMem x).events = s.events := rfl

@[simp] theorem State.withLastError_dec (x : Bits3) : (s.withLastError x).dec = s.dec := rfl
@[simp] theorem State.withLastError_store (x : Bits3) : (s.withLastError x).store = s.store := rfl
@[simp] theorem State.withLastError_mem (x : Bits3) : (s.withLastError x).mem = s.mem := rfl
@[simp] theorem State.withLastError_lastError (x : Bits3) : (s.withLastError x).lastError = x := rfl
@[simp] theorem State.withLastError_params (x : Bits3) : (s.withLastError x).params = s.params := rfl
@[simp] theorem State.withLastError_done (x : Bits3) : (s.withLastError x).done = s.done := rfl
@[simp] theorem State.withLastError_out (x : Bits3) : (s.withLastError x).out = s.out := rfl
@[simp] theorem State.withLastError_events (x : Bits3) : (s.withLastError x).events = s.events := rfl

@[simp] theorem State.withDone_dec (x : Option DoneEvent) : (s.withDone x).dec = s.dec := rfl
@[simp] theorem State.withDone_store (x : Option DoneEvent) : (s.withDone x).store = s.store := rfl
@[simp] theorem State.withDone_mem (x : Option DoneEvent) : (s.withDone x).mem = s.mem := rfl
@[simp] theorem State.withDone_lastError (x : Option DoneEvent) : (s.withDone x).lastError = s.lastError := rfl
@[simp] theorem State.withDone_params (x : Option DoneEvent) : (s.withDone x).params = s.params := rfl
@[simp] theorem State.withDone_done (x : Option DoneEvent) : (s.withDone x).done = x := rfl
@[simp] theorem State.withDone_out (x : Option DoneEvent) : (s.withDone x).out = s.out := rfl
@[simp] theorem State.withDone_events (x : Option DoneEvent) : (s.withDone x).events = s.events := rfl

@[simp] theorem State.withOut_dec (x : Option TickOut) : (s.withOut x).dec = s.dec := rfl
@[simp] theorem State.withOut_store (x : Option TickOut) : (s.withOut x).store = s.store := rfl
@[simp] theorem State.withOut_mem (x : Option TickOut) : (s.withOut x).mem = s.mem := rfl
@[simp] theorem State.withOut_lastError (x : Option TickOut) : (s.withOut x).lastError = s.lastError := rfl
@[simp] theorem State.withOut_params (x : Option TickOut) : (s.withOut x).params = s.params := rfl
@[simp] theorem State.withOut_done (x : Option TickOut) : (s.withOut x).done = s.done := rfl
@[simp] theorem State.withOut_out (x : Option TickOut) : (s.withOut x).out = x := rfl
@[simp] theorem State.withOut_events (x : Option TickOut) : (s.withOut x).events = s.events := rfl

@[simp] theorem State.withEvents_dec (x : List Event) : (s.withEvents x).dec = s.dec := rfl
@[simp] theorem State.withEvents_store (x : List Event) : (s.withEvents x).store = s.store := rfl
@[simp] theorem State.withEvents_mem (x : List Event) : (s.withEvents x).mem = s.mem := rfl
@[simp] theorem State.withEvents_lastError (x : List Event) : (s.withEvents x).lastError = s.lastError := rfl
@[simp] theorem State.withEvents_params (x : List Event) : (s.withEvents x).params = s.params := rfl
@[simp] theorem State.withEvents_done (x : List Event) : (s.withEvents x).done = s.done := rfl
@[simp] theorem State.withEvents_out (x : List Event) : (s.withEvents x).out = s.out := rfl
@[simp] theorem State.withEvents_events (x : List Event) : (s.withEvents x).events = x := rfl

end Sys2Proof.Machine
end

