-- ==== Sys2Proof/Laws/Memory.lean ====
section
/-! SUPPORT. The laws of the sample memory: a read after a write, the canonical form, and the one-to-one cell keys. -/

namespace Sys2Proof.Machine

/-! ### Reads and writes of the cell list -/

@[simp] theorem Memory.read_write_same (m : Memory) (key : Nat) (v : Byte) : (m.write key v).read key = some v := by
  induction m with
  | nil => simp [Memory.write, Memory.read]
  | cons c rest ih =>
    obtain ⟨k, u⟩ := c
    simp only [Memory.write]
    split
    · simp [Memory.read]
    · split
      · simp [Memory.read]
      · have : k ≠ key := fun h => by simp_all
        simp [Memory.read, this, ih]

theorem Memory.read_write_other (m : Memory) {key key' : Nat} (v : Byte) (h : key' ≠ key) :
    (m.write key v).read key' = m.read key' := by
  induction m with
  | nil => simp [Memory.write, Memory.read, Ne.symm h]
  | cons c rest ih =>
    obtain ⟨k, u⟩ := c
    simp only [Memory.write]
    split
    · simp [Memory.read, Ne.symm h]
    · split
      · rename_i _ hk
        subst hk
        simp [Memory.read, Ne.symm h]
      · simp [Memory.read, ih]

theorem Memory.read_write (m : Memory) (key key' : Nat) (v : Byte) :
    (m.write key v).read key' = if key' = key then some v else m.read key' := by
  by_cases h : key' = key
  · simp [h]
  · simp [h, Memory.read_write_other]

/-! ### The canonical form -/

theorem Memory.risingFrom_write (m : Memory) (bound key : Nat) (v : Byte) (hm : m.risingFrom bound = true)
    (hb : bound ≤ key) : (m.write key v).risingFrom bound = true := by
  induction m generalizing bound with
  | nil => simp [Memory.write, Memory.risingFrom, hb]
  | cons c rest ih =>
    obtain ⟨k, u⟩ := c
    simp only [Memory.risingFrom, Bool.and_eq_true, decide_eq_true_eq] at hm
    simp only [Memory.write]
    split
    · rename_i hlt
      simp only [Memory.risingFrom, Bool.and_eq_true, decide_eq_true_eq]
      exact ⟨hb, by omega, hm.2⟩
    · split
      · rename_i hk
        subst hk
        simp [Memory.risingFrom, hb, hm.2]
      · simp only [Memory.risingFrom, Bool.and_eq_true, decide_eq_true_eq]
        exact ⟨hm.1, ih (k + 1) hm.2 (by omega)⟩

/-- A write keeps the canonical form. -/
theorem Memory.write_wf (m : Memory) (key : Nat) (v : Byte) (hm : m.wf = true) : (m.write key v).wf = true :=
  Memory.risingFrom_write m 0 key v hm (Nat.zero_le _)

/-- A cell of a written memory is the written one or was there before. -/
theorem Memory.mem_write {m : Memory} {key : Nat} {v : Byte} {cell : Host.Cell} (h : cell ∈ m.write key v) :
    cell = (key, v) ∨ cell ∈ m := by
  induction m with
  | nil => exact .inl (by simpa [Memory.write] using h)
  | cons c rest ih =>
    obtain ⟨k, u⟩ := c
    simp only [Memory.write] at h
    split at h
    · simpa using h
    · split at h
      · rcases List.mem_cons.1 h with h | h
        · exact .inl h
        · exact .inr (List.mem_cons_of_mem _ h)
      · rcases List.mem_cons.1 h with h | h
        · exact .inr (by simp [h])
        · rcases ih h with h | h
          · exact .inl h
          · exact .inr (List.mem_cons_of_mem _ h)

/-- What `RESET` writes, spelled out for `RESET_COUNT = 1` (R171). -/
theorem Memory.afterReset_eq (m : Memory) :
    m.afterReset =
      ((m.write (cellKey 0#1 .a 0) 0x00#8).write (cellKey 0#1 .b 0) 0x00#8).write (cellKey 0#1 .c 0) 0x00#8 := rfl

theorem Memory.afterReset_wf (m : Memory) (hm : m.wf = true) : m.afterReset.wf = true := by
  rw [Memory.afterReset_eq]
  exact Memory.write_wf _ _ _ (Memory.write_wf _ _ _ (Memory.write_wf _ _ _ hm))

/-! ### Cell keys -/

/-- The numbering of the bytes is one to one below 65536 (log 7). -/
theorem cellKey_inj {k k' : Bank} {ch ch' : Channel} {i i' : Nat} (hi : i < 65536) (hi' : i' < 65536)
    (h : cellKey k ch i = cellKey k' ch' i') : k = k' ∧ ch = ch' ∧ i = i' := by
  have hk := k.isLt
  have hk' := k'.isLt
  rw [← BitVec.toNat_inj]
  cases ch <;> cases ch' <;> simp only [cellKey, channelIndex] at h <;> (refine ⟨?_, ?_, ?_⟩) <;> first | rfl | omega

theorem one_le_cap (p : Params) : 1 ≤ p.cap := by simp [Params.cap]

theorem cap_le_max (p : Params) : p.cap ≤ 65535 := by
  have := p.capPred.isLt
  simp only [Params.cap]
  omega

theorem lt_of_lt_cap {p : Params} {i : Nat} (h : i < p.cap) : i < 65536 := by
  have := cap_le_max p
  omega

/-! ### The two accesses -/

theorem memRead_eq_ok {s : State} {k : Bank} {ch : Channel} {i : Nat} {v : Byte} :
    memRead s k ch i = .ok v ↔ i < s.params.cap ∧ s.mem.read (cellKey k ch i) = some v := by
  unfold memRead
  split
  · split <;> simp_all
  · simp_all

/-- A read depends on the memory and on `CAP` alone (R44). -/
theorem memRead_congr {s t : State} (hm : t.mem = s.mem) (hp : t.params = s.params) (k : Bank) (ch : Channel) (i : Nat) :
    memRead t k ch i = memRead s k ch i := by
  simp [memRead, hm, hp]

/-- A write in range answers the one written byte and no other change (R41). -/
theorem memWrite_eq {s : State} {k : Bank} {ch : Channel} {i : Nat} (v : Byte) (h : i < s.params.cap) :
    memWrite s k ch i v = .ok (s.withMem (s.mem.write (cellKey k ch i) v)) := by
  simp [memWrite, h]

/-- Reading back: the written byte, and every other byte as before (R41). -/
theorem memRead_write {s t : State} {k k' : Bank} {ch ch' : Channel} {i i' : Nat} {v : Byte}
    (hi : i < s.params.cap) (hm : t.mem = s.mem.write (cellKey k ch i) v) (hp : t.params = s.params) :
    memRead t k' ch' i' = if k' = k ∧ ch' = ch ∧ i' = i then .ok v else memRead s k' ch' i' := by
  unfold memRead
  rw [hm, hp]
  by_cases hi' : i' < s.params.cap
  · simp only [hi', if_true, Memory.read_write]
    by_cases h : k' = k ∧ ch' = ch ∧ i' = i
    · obtain ⟨rfl, rfl, rfl⟩ := h
      simp
    · have hne : cellKey k' ch' i' ≠ cellKey k ch i := fun hk =>
        h (cellKey_inj (lt_of_lt_cap hi') (lt_of_lt_cap hi) hk)
      simp [hne, h]
  · have h : ¬(k' = k ∧ ch' = ch ∧ i' = i) := fun h => hi' (h.2.2 ▸ hi)
    simp [hi', h]

end Sys2Proof.Machine
end

