-- ==== Sys2Proof/Laws/Exec.lean ====
section
/-! SUPPORT. What one instruction can do, said once: the effect of each byte step, of a tick and of a reset. -/

namespace Sys2Proof.Machine

/-! ### Small lemmas of the shared operations -/

section Fields

variable (s : State)

@[simp] theorem clearOutputs_dec : (clearOutputs s).dec = s.dec := rfl
@[simp] theorem clearOutputs_store : (clearOutputs s).store = s.store := rfl
@[simp] theorem clearOutputs_mem : (clearOutputs s).mem = s.mem := rfl
@[simp] theorem clearOutputs_lastError : (clearOutputs s).lastError = s.lastError := rfl
@[simp] theorem clearOutputs_params : (clearOutputs s).params = s.params := rfl
@[simp] theorem clearOutputs_done : (clearOutputs s).done = none := rfl
@[simp] theorem clearOutputs_out : (clearOutputs s).out = none := rfl
@[simp] theorem clearOutputs_events : (clearOutputs s).events = s.events := rfl

end Fields

theorem whenLegal_of_legal {s : State} (h : s.legal = true) (k : State → Result) :
    whenLegal s k = k (clearOutputs s) := by
  simp [whenLegal, h]

theorem legal_of_whenLegal_next {s t : State} {k : State → Result} (h : whenLegal s k = .next t) : s.legal = true := by
  unfold whenLegal at h
  split at h
  · assumption
  · simp at h

@[simp] theorem legal_withEvents (s : State) (e : List Event) : (s.withEvents e).legal = s.legal := rfl

/-- The state after the last byte of a message: the flags are latched and reported, the decoder is Idle (R112). -/
def ended (s : State) (e : Bits3) (st : PatternStore) : State :=
  { clearOutputs s with
    dec := DecoderState.initial, store := st, lastError := e,
    done := some { kind := s.dec.messageKind, flags := e } }

theorem rejectMessage_clearOutputs (e : Bits3) (s : State) :
    rejectMessage e (clearOutputs s) = ended s (s.dec.error ||| e) s.store := rfl

/-! ### The effect of a byte step -/

/-- Everything a byte step can do from a legal state. -/
inductive ByteEffect (s : State) : Instr → State → Prop
  /-- only the decoder position and the working registers change; a claim that is held afterwards covers nothing that
  was not there before, and an error stays (R16, R105) -/
  | moved {i : Instr} {d : DecoderState} (hd : Shape s.params.cap d)
    (hc : d.shadowClaimed = 0b111#3 → ∀ ch j, arrived d ch j → s.dec.shadowClaimed = 0b111#3 ∧ arrived s.dec ch j)
    (hq : s.dec.error ≠ Flag.none → d.error = s.dec.error) : ByteEffect s i ((clearOutputs s).withDec d)
  /-- a sample byte goes to the shadow bank (R106) -/
  | stored {b : Byte} {ch : Channel} {d : DecoderState} (hd : Shape s.params.cap d)
    (hf : s.dec.fieldKind = .data) (hch : s.dec.activeChannel = .one ch) (herr : s.dec.error = Flag.none)
    (hcl : s.dec.shadowClaimed = 0b111#3) (hi : s.dec.byteIndex.toNat < s.params.cap)
    (hc : ∀ ch' j, arrived d ch' j → arrived s.dec ch' j ∨ (ch' = ch ∧ j = s.dec.byteIndex.toNat)) :
    ByteEffect s (.pat (.data b))
      (((clearOutputs s).withMem (s.mem.write (cellKey (shadowBank s) ch s.dec.byteIndex.toNat) b)).withDec d)
  /-- an unassigned type byte (R89) -/
  | unknown {t : Byte} (hk : s.dec.messageKind = .none) :
    ByteEffect s (.unk t) (ended s Flag.unknownType s.store)
  /-- a wrong delimiter (R109) -/
  | badDelimiter {b : Byte} (hk : s.dec.messageKind = .pattern)
    (he : s.dec.error = Flag.none ∨ s.dec.error = Flag.allocationFailure) :
    ByteEffect s (.pat (.delimiter b)) (ended s (s.dec.error ||| Flag.badDelimiter) s.store)
  /-- the last delimiter in drain (R110) -/
  | drained {b : Byte} (hk : s.dec.messageKind = .pattern) (he : s.dec.error = Flag.allocationFailure) :
    ByteEffect s (.pat (.delimiter b)) (ended s Flag.allocationFailure s.store)
  /-- the last delimiter of an accepted pattern (R110, R121) -/
  | committed (hk : s.dec.messageKind = .pattern) (hf : s.dec.fieldKind = .delimiter)
    (hch : s.dec.activeChannel = .one .c) (he : s.dec.error = Flag.none) (hcl : s.dec.shadowClaimed = 0b111#3)
    (h1 : 1 ≤ s.dec.pendingLength.toNat) (hn : s.dec.pendingLength.toNat ≤ s.params.cap) :
    ByteEffect s (.pat (.delimiter Config.delim))
      (ended s Flag.none
        { s.store with liveSel := 1#1 - s.store.liveSel, sampleCount := s.dec.pendingLength, playIndex := 0#16 })
  /-- the second payload byte of `FREQ` (R90) -/
  | frequencySet {b : Byte} (hk : s.dec.messageKind = .frequency) (hi : s.dec.byteIndex = 1#16) :
    ByteEffect s (.freq (.payload b))
      (ended s Flag.none { s.store with frequency := joinBytes b (loByte s.dec.pendingFrequency) })
  /-- the second payload byte of `AMP` (R91) -/
  | amplitudeSet {b : Byte} (hk : s.dec.messageKind = .amplitude) (hi : s.dec.byteIndex = 1#16) :
    ByteEffect s (.amp (.payload b))
      (ended s Flag.none { s.store with amplitude := joinBytes b (loByte s.dec.pendingAmplitude) })

theorem arrived_first {d : DecoderState} (hf : d.fieldKind = .data) (hch : d.activeChannel = .one .a)
    (hi : d.byteIndex = 0#16) (ch : Channel) (j : Nat) : ¬arrived d ch j := by
  simp [arrived, hch, hf, hi, channelIndex]

/-- Counting a byte, and where it leaves the position (R106). -/
theorem add_one_toNat {i n : Word} (h : i.toNat < n.toNat) : (i + 1#16).toNat = i.toNat + 1 := by
  have := n.isLt
  rw [BitVec.toNat_add]
  simp only [BitVec.toNat_ofNat]
  omega

theorem add_one_lt {i n : Word} (h : i.toNat < n.toNat) (hne : i + 1#16 ≠ n) : (i + 1#16).toNat < n.toNat := by
  have h1 := add_one_toNat h
  have : (i + 1#16).toNat ≠ n.toNat := fun hh => hne (BitVec.eq_of_toNat_eq hh)
  omega

theorem execFreq_effect {p : ShortByte} {s t : State} (h : execFreq p s = .next t) : ByteEffect s (.freq p) t := by
  have hl := legal_of_whenLegal_next h
  rw [execFreq, whenLegal_of_legal hl] at h
  have hs := (legal_iff.1 hl).1
  generalize hd : s.dec = d at hs
  cases p <;> cases hs <;>
    simp [enterMessage, frequencyStep, spliceIndex, DecoderState.initial, replaceByte, setPos, hd] at h <;> subst h
  · exact .moved .freq0 (by simp) (by simp [hd, DecoderState.initial, Flag.none])
  · exact .moved (.freq1 _) (by simp) (by simp [hd, DecoderState.initial, Flag.none])
  · have := @ByteEffect.frequencySet s
    simp [hd, ended, DecoderState.initial] at this
    exact this

theorem execAmp_effect {p : ShortByte} {s t : State} (h : execAmp p s = .next t) : ByteEffect s (.amp p) t := by
  have hl := legal_of_whenLegal_next h
  rw [execAmp, whenLegal_of_legal hl] at h
  have hs := (legal_iff.1 hl).1
  generalize hd : s.dec = d at hs
  cases p <;> cases hs <;>
    simp [enterMessage, amplitudeStep, spliceIndex, DecoderState.initial, replaceByte, setPos, hd] at h <;> subst h
  · exact .moved .amp0 (by simp) (by simp [hd, DecoderState.initial, Flag.none])
  · exact .moved (.amp1 _) (by simp) (by simp [hd, DecoderState.initial, Flag.none])
  · have := @ByteEffect.amplitudeSet s
    simp [hd, ended, DecoderState.initial] at this
    exact this

theorem execUnk_effect {u : Byte} {s t : State} (h : execUnk u s = .next t) : ByteEffect s (.unk u) t := by
  have hl := legal_of_whenLegal_next h
  rw [execUnk, whenLegal_of_legal hl] at h
  have hs := (legal_iff.1 hl).1
  generalize hd : s.dec = d at hs
  unfold unknownStep at h
  split at h
  · cases hs <;> simp [DecoderState.initial, hd] at h
    have := @ByteEffect.unknown s u (by simp [hd, DecoderState.initial])
    rw [← h, rejectMessage_clearOutputs]
    simpa [hd, DecoderState.initial] using this
  · simp at h

theorem raise_badDelimiter_cases {e : Bits3} (h : e = Flag.none ∨ e = Flag.allocationFailure) :
    e ||| Flag.badDelimiter = 0b100#3 ∨ e ||| Flag.badDelimiter = 0b110#3 := by
  rcases h with rfl | rfl
  · exact .inl rfl
  · exact .inr rfl

theorem claim_granted {deny : Bits3} {s : State} (hn : s.dec.pendingLength.toNat ≤ s.params.cap) (hd : deny = 0#3) :
    claim deny s = s.withDec { s.dec with shadowClaimed := 0b111#3 } := by
  subst hd
  simp [claim, allChannels, grant, hn, channelBit]

theorem claim_refused {deny : Bits3} {s : State} (h : ¬(s.dec.pendingLength.toNat ≤ s.params.cap ∧ deny = 0#3)) :
    claim deny s = raiseFlag Flag.allocationFailure (release s) := by
  have key : ∀ v : Bits3, (channelBit v .a = false ∧ channelBit v .b = false ∧ channelBit v .c = false) → v = 0#3 := by
    decide
  unfold claim
  rw [if_neg]
  intro hall
  simp only [allChannels, grant, List.all_cons, List.all_nil, Bool.and_true, Bool.and_eq_true, decide_eq_true_eq,
    Bool.not_eq_true'] at hall
  exact h ⟨hall.1.1, key deny ⟨hall.1.2, hall.2.1.2, hall.2.2.2⟩⟩

theorem countByte_ne {s : State} (h : s.dec.byteIndex + 1#16 ≠ s.dec.pendingLength) :
    countByte s = s.withDec { s.dec with byteIndex := s.dec.byteIndex + 1#16 } := by
  simp [countByte, h]

theorem countByte_eq {s : State} (h : s.dec.byteIndex + 1#16 = s.dec.pendingLength) :
    countByte s = s.withDec { s.dec with fieldKind := .delimiter, byteIndex := 0#16 } := by
  simp [countByte, h]

theorem toNat_pos_of_ne {n : Word} (h : n ≠ 0#16) : 0 < n.toNat := by
  rcases Nat.eq_zero_or_pos n.toNat with h0 | h0
  · exact absurd (BitVec.eq_of_toNat_eq h0) h
  · exact h0

theorem lengthStep_effect {b : Byte} {deny : Bits3} {s t : State} (hs : Shape s.params.cap s.dec)
    (hf : s.dec.messageKind = .pattern ∧ s.dec.fieldKind = .length) (h : lengthStep b deny (clearOutputs s) = .next t) :
    ByteEffect s (.pat (.length b deny)) t := by
  generalize hd : s.dec = d at hs hf
  cases hs <;> simp [DecoderState.initial] at hf
  · simp [lengthStep, spliceIndex, hd, DecoderState.initial, replaceByte] at h
    subst h
    exact .moved (.len1 b) (by simp) (by simp [hd, DecoderState.initial, Flag.none])
  · simp [lengthStep, spliceIndex, hd, DecoderState.initial, replaceByte] at h
    subst h
    rename_i lo
    unfold lengthComplete
    by_cases hn : joinBytes b lo = 0#16
    · simp [hn, enterField, raiseFlag]
      exact .moved (.delimDrain .a 0#16) (by simp) (by simp [hd, DecoderState.initial, Flag.none])
    · by_cases hc : (joinBytes b lo).toNat ≤ s.params.cap ∧ deny = 0#3
      · rw [claim_granted (by simpa using hc.1) hc.2]
        simp [hn, enterField]
        refine .moved (.dataFill .a 0#16 _ (by simpa using toNat_pos_of_ne hn) hc.1) (fun _ ch j ha => ?_) (by simp [hd, DecoderState.initial, Flag.none])
        exact absurd ha (arrived_first rfl rfl rfl ch j)
      · rw [claim_refused (by simpa using hc)]
        simp [hn, enterField, raiseFlag, release]
        exact .moved (.dataDrain .a 0#16 _ (by simpa using toNat_pos_of_ne hn)) (by simp) (by simp [hd, DecoderState.initial, Flag.none, Flag.allocationFailure])

theorem dataStep_effect {b : Byte} {s t : State} (hs : Shape s.params.cap s.dec)
    (hf : s.dec.messageKind = .pattern ∧ s.dec.fieldKind = .data) (h : dataStep b (clearOutputs s) = .next t) :
    ByteEffect s (.pat (.data b)) t := by
  generalize hd : s.dec = d at hs hf
  cases hs <;> simp [DecoderState.initial] at hf
  · rename_i ch i n hi hn
    have hcap : i.toNat < (clearOutputs s).params.cap := Nat.lt_of_lt_of_le hi hn
    simp [dataStep, inError, hd, DecoderState.initial, Flag.none, memWrite_eq b hcap] at h
    subst h
    by_cases he : i + 1#16 = n
    · rw [countByte_eq (by simpa [hd, DecoderState.initial] using he)]
      have := @ByteEffect.stored s b ch
        { DecoderState.initial with
          messageKind := .pattern, fieldKind := .delimiter, activeChannel := .one ch, pendingLength := n,
          shadowClaimed := 0b111#3 }
        (.delimFill ch n (by omega) hn) (by simp [hd]) (by simp [hd]) (by simp [hd, DecoderState.initial, Flag.none])
        (by simp [hd]) (by simpa [hd] using Nat.lt_of_lt_of_le hi hn)
        (by
          intro ch' j ha
          have h1 := add_one_toNat hi
          rw [he] at h1
          simp only [arrived, hd, DecoderState.initial, if_true] at ha ⊢
          rcases ha with ha | ⟨rfl, ha⟩
          · exact .inl (.inl ha)
          · by_cases hj : j = i.toNat
            · exact .inr ⟨rfl, hj⟩
            · exact .inl (.inr ⟨rfl, by simp; omega⟩))
      simpa [hd, DecoderState.initial, shadowBank] using this
    · rw [countByte_ne (by simpa [hd, DecoderState.initial] using he)]
      have := @ByteEffect.stored s b ch
        { DecoderState.initial with
          messageKind := .pattern, fieldKind := .data, activeChannel := .one ch, byteIndex := i + 1#16,
          pendingLength := n, shadowClaimed := 0b111#3 }
        (.dataFill ch (i + 1#16) n (add_one_lt hi he) hn) (by simp [hd]) (by simp [hd])
        (by simp [hd, DecoderState.initial, Flag.none]) (by simp [hd])
        (by simpa [hd] using Nat.lt_of_lt_of_le hi hn)
        (by
          intro ch' j ha
          have h1 := add_one_toNat hi
          simp only [arrived, hd, DecoderState.initial] at ha ⊢
          rcases ha with ha | ⟨rfl, ha⟩
          · exact .inl (.inl ha)
          · by_cases hj : j = i.toNat
            · exact .inr ⟨rfl, hj⟩
            · simp [h1] at ha
              exact .inl (.inr ⟨rfl, by simp; omega⟩))
      simpa [hd, DecoderState.initial, shadowBank] using this
  · rename_i ch i n hi
    simp [dataStep, inError, hd, DecoderState.initial, Flag.none, Flag.allocationFailure] at h
    subst h
    by_cases he : i + 1#16 = n
    · rw [countByte_eq (by simpa [hd, DecoderState.initial] using he)]
      simp [hd, DecoderState.initial]
      exact .moved (.delimDrain ch n) (by simp) (by simp [hd, DecoderState.initial, Flag.none, Flag.allocationFailure])
    · rw [countByte_ne (by simpa [hd, DecoderState.initial] using he)]
      simp [hd, DecoderState.initial]
      exact .moved (.dataDrain ch (i + 1#16) n (add_one_lt hi he)) (by simp) (by simp [hd, DecoderState.initial, Flag.none, Flag.allocationFailure])

theorem delimiterStep_effect {b : Byte} {s t : State} (hs : Shape s.params.cap s.dec)
    (hf : s.dec.messageKind = .pattern ∧ s.dec.fieldKind = .delimiter) (h : delimiterStep b (clearOutputs s) = .next t) :
    ByteEffect s (.pat (.delimiter b)) t := by
  generalize hd : s.dec = d at hs hf
  by_cases hb : b = Config.delim
  · subst hb
    cases hs <;> simp [DecoderState.initial] at hf
    · rename_i ch n h1 hn
      have hz : n ≠ 0#16 := by rintro rfl; simp at h1
      cases ch <;>
        simp [delimiterStep, hd, DecoderState.initial, nextChannel, enterField, finishPattern, inError, Flag.none, hz]
          at h <;> subst h
      · refine .moved (.dataFill .b 0#16 n h1 hn) (fun _ ch' j ha => ?_) (by simp [hd, DecoderState.initial, Flag.none])
        simp [hd, arrived, DecoderState.initial, channelIndex] at ha ⊢
        cases ch' <;> simp_all
      · refine .moved (.dataFill .c 0#16 n h1 hn) (fun _ ch' j ha => ?_) (by simp [hd, DecoderState.initial, Flag.none])
        simp [hd, arrived, DecoderState.initial, channelIndex] at ha ⊢
        cases ch' <;> simp_all
      · have := @ByteEffect.committed s (by simp [hd]) (by simp [hd]) (by simp [hd])
          (by simp [hd, DecoderState.initial, Flag.none]) (by simp [hd]) (by simpa [hd] using h1) (by simpa [hd] using hn)
        simp [ended, hd, DecoderState.initial] at this
        simp [endMessage, commit, release, hd]
        exact this
    · rename_i ch n
      cases ch <;>
        simp [delimiterStep, hd, DecoderState.initial, nextChannel, enterField, finishPattern, inError, Flag.none,
          Flag.allocationFailure] at h <;> subst h
      · by_cases hz : n = 0#16
        · simp only [hz, if_true]
          exact .moved (.delimDrain .b 0#16) (by simp) (by simp [hd, DecoderState.initial, Flag.none, Flag.allocationFailure])
        · simp only [hz, if_false]
          exact .moved (.dataDrain .b 0#16 n (by simpa using toNat_pos_of_ne hz)) (by simp) (by simp [hd, DecoderState.initial, Flag.none, Flag.allocationFailure])
      · by_cases hz : n = 0#16
        · simp only [hz, if_true]
          exact .moved (.delimDrain .c 0#16) (by simp) (by simp [hd, DecoderState.initial, Flag.none, Flag.allocationFailure])
        · simp only [hz, if_false]
          exact .moved (.dataDrain .c 0#16 n (by simpa using toNat_pos_of_ne hz)) (by simp) (by simp [hd, DecoderState.initial, Flag.none, Flag.allocationFailure])
      · have := @ByteEffect.drained s Config.delim (by simp [hd]) (by simp [hd])
        simp [ended, hd, DecoderState.initial] at this
        simp [endMessage, hd]
        exact this
  · cases hs <;> simp [DecoderState.initial] at hf <;>
      simp [delimiterStep, hd, DecoderState.initial, hb, rejectMessage_clearOutputs] at h <;> subst h
    · have := @ByteEffect.badDelimiter s b (by simp [hd]) (.inl (by simp [hd, DecoderState.initial, Flag.none]))
      simpa [hd, DecoderState.initial] using this
    · have := @ByteEffect.badDelimiter s b (by simp [hd]) (.inr (by simp [hd]))
      simpa [hd, DecoderState.initial] using this

theorem atField_next {fk : FieldKind} {s t : State} {r : Result} :
    atField fk s r = .next t ↔ (s.dec.messageKind = .pattern ∧ s.dec.fieldKind = fk) ∧ r = .next t := by
  unfold atField
  by_cases h : s.dec.messageKind = .pattern ∧ s.dec.fieldKind = fk
  · simp [h]
  · simp [h]

theorem execPat_effect {p : PatByte} {s t : State} (h : execPat p s = .next t) : ByteEffect s (.pat p) t := by
  have hl := legal_of_whenLegal_next h
  rw [execPat, whenLegal_of_legal hl] at h
  have hs := (legal_iff.1 hl).1
  cases p with
  | typeByte =>
    generalize hd : s.dec = d at hs
    cases hs <;> simp [enterMessage, DecoderState.initial, setPos, hd] at h
    subst h
    exact .moved .len0 (by simp) (by simp [hd, DecoderState.initial, Flag.none])
  | length b deny =>
    obtain ⟨hf, h⟩ := atField_next.1 h
    exact lengthStep_effect hs hf h
  | data b =>
    obtain ⟨hf, h⟩ := atField_next.1 h
    exact dataStep_effect hs hf h
  | delimiter b =>
    obtain ⟨hf, h⟩ := atField_next.1 h
    exact delimiterStep_effect hs hf h

/-- Nothing but `RESET` completes in an illegal state. -/
theorem legal_of_exec_next {i : Instr} {s t : State} (hi : i ≠ .reset) (h : exec i s = .next t) : s.legal = true := by
  cases i with
  | pat p =>
    simp only [exec, execPat] at h
    exact legal_of_whenLegal_next h
  | freq p =>
    simp only [exec, execFreq] at h
    exact legal_of_whenLegal_next h
  | amp p =>
    simp only [exec, execAmp] at h
    exact legal_of_whenLegal_next h
  | unk u =>
    simp only [exec, execUnk] at h
    exact legal_of_whenLegal_next h
  | tick => exact legal_of_whenLegal_next (show execTick s = .next t from h)
  | reset => exact absurd rfl hi

theorem ne_reset_of_onStream {i : Instr} (hi : i.onStream = true) : i ≠ .reset := by
  rintro rfl
  simp [Instr.onStream] at hi

/-- Everything a byte step does, for every instruction of the stream. -/
theorem exec_byteEffect {i : Instr} {s t : State} (hi : i.onStream = true) (h : exec i s = .next t) :
    ByteEffect s i t := by
  cases i with
  | pat p => exact execPat_effect h
  | freq p => exact execFreq_effect h
  | amp p => exact execAmp_effect h
  | unk u => exact execUnk_effect h
  | tick => simp [Instr.onStream] at hi
  | reset => simp [Instr.onStream] at hi

/-! ### A tick and a reset -/

theorem readTriple_eq_ok {s : State} {o : TickOut} :
    readTriple s = .ok o ↔
      memRead s s.store.liveSel .a s.store.playIndex.toNat = .ok o.sampleA ∧
        memRead s s.store.liveSel .b s.store.playIndex.toNat = .ok o.sampleB ∧
          memRead s s.store.liveSel .c s.store.playIndex.toNat = .ok o.sampleC ∧ s.store.amplitude = o.amplitude := by
  obtain ⟨am, oa, ob, oc⟩ := o
  unfold readTriple
  split
  · rename_i h₁ h₂ h₃
    simp only [h₁, h₂, h₃, Except.ok.injEq, TickOut.mk.injEq]
    tauto
  all_goals simp_all

/-- A tick answers a next state exactly when the state is legal and the three samples have been written (R139). -/
theorem execTick_next {s t : State} :
    execTick s = .next t ↔
      s.legal = true ∧ ∃ o, readTriple s = .ok o ∧
        t = ((clearOutputs s).withOut (some o)).withStore
          { s.store with playIndex := advance s.store.playIndex s.store.sampleCount } := by
  have hr : readTriple (clearOutputs s) = readTriple s := rfl
  constructor
  · intro h
    have hl := legal_of_whenLegal_next h
    rw [execTick, whenLegal_of_legal hl, tickStep, hr] at h
    refine ⟨hl, ?_⟩
    split at h
    · rename_i o ho
      simp only [Host.Outcome.next.injEq] at h
      exact ⟨o, ho, h.symm⟩
    · simp at h
  · rintro ⟨hl, o, ho, rfl⟩
    rw [execTick, whenLegal_of_legal hl, tickStep, hr, ho]
    rfl

theorem execReset_next {s t : State} : execReset s = .next t ↔ t = resetStep s := by
  simp [execReset, eq_comm]

theorem advance_toNat {p n : Word} (h : p.toNat < n.toNat) :
    (advance p n).toNat = if p.toNat + 1 < n.toNat then p.toNat + 1 else 0 := by
  have hn := n.isLt
  simp only [advance, BitVec.toNat_ofNat]
  by_cases hlt : p.toNat + 1 < n.toNat
  · rw [if_pos hlt, Nat.mod_eq_of_lt hlt]
    omega
  · rw [if_neg hlt, show p.toNat + 1 = n.toNat by omega, Nat.mod_self]

/-! ### The next event -/

theorem run_zero (s : State) : run 0 s = .next s := rfl

theorem run_succ {n : Nat} {s t : State} (h : step s = .next t) : run (n + 1) s = run n t := by
  simp only [run, Host.Core.run]
  rw [show Host.Core.step Sys2Proof.core s = Host.Outcome.next t from h]

/-- One step on a first event: the event's instruction, with the event consumed. -/
theorem step_cons {s : State} {e : Event} {rest : List Event} {i : Instr} (he : s.events = e :: rest)
    (hi : fetchEvent s e = .ok i) : step s = exec i (s.withEvents rest) := by
  simp [step, he, hi]

end Sys2Proof.Machine
end

