-- ==== Sys2Proof/Laws/Inv.lean ====
section
/-! SUPPORT. How the parts of the invariant fare under each effect: one lemma per effect, cited by the proofs about steps
and runs. -/

namespace Sys2Proof.Machine

/-! ### Reads that do not change -/

theorem liveSample_eq_some {s : State} {ch : Channel} {i : Nat} {v : Byte} :
    liveSample s ch i = some v ↔ memRead s s.store.liveSel ch i = .ok v := by
  unfold liveSample
  cases memRead s s.store.liveSel ch i <;> simp [Except.toOption]

theorem written_congr {s t : State} (hm : t.mem = s.mem) (hp : t.params = s.params) {k : Bank} {ch : Channel} {i : Nat} :
    written t k ch i ↔ written s k ch i := by
  simp [written, memRead_congr hm hp]

theorem liveSample_congr {s t : State} (hm : t.mem = s.mem) (hp : t.params = s.params)
    (hl : t.store.liveSel = s.store.liveSel) (ch : Channel) (i : Nat) : liveSample t ch i = liveSample s ch i := by
  simp [liveSample, hl, memRead_congr hm hp]

theorem shadowBank_ne (s : State) : shadowBank s ≠ s.store.liveSel := by
  unfold shadowBank
  generalize s.store.liveSel = k
  revert k
  decide

theorem shadowBank_shadow (k : Bank) : 1#1 - (1#1 - k) = k := by
  revert k
  decide

/-- A write to the shadow bank leaves every byte of the live bank as it was (R42). -/
theorem memRead_live_of_shadow_write {s t : State} {ch ch' : Channel} {i j : Nat} {v : Byte} (hi : i < s.params.cap)
    (hm : t.mem = s.mem.write (cellKey (shadowBank s) ch i) v) (hp : t.params = s.params) :
    memRead t s.store.liveSel ch' j = memRead s s.store.liveSel ch' j := by
  rw [memRead_write hi hm hp, if_neg]
  exact fun h => shadowBank_ne s h.1.symm

theorem written_write {s t : State} {k k' : Bank} {ch ch' : Channel} {i j : Nat} {v : Byte} (hi : i < s.params.cap)
    (hm : t.mem = s.mem.write (cellKey k ch i) v) (hp : t.params = s.params) :
    written t k' ch' j ↔ (k' = k ∧ ch' = ch ∧ j = i) ∨ written s k' ch' j := by
  simp only [written, memRead_write hi hm hp]
  by_cases h : k' = k ∧ ch' = ch ∧ j = i <;> simp [h]

/-! ### The invariant after each effect -/

theorem inv_of_withEvents {s : State} {e : List Event} : StateInv (s.withEvents e) ↔ StateInv s := by
  constructor
  · intro h
    exact ⟨h.legal, h.memCanonical, h.cellsExist, h.liveWritten, h.shadowFilled, h.lastErrorPossible⟩
  · intro h
    exact ⟨h.legal, h.memCanonical, h.cellsExist, h.liveWritten, h.shadowFilled, h.lastErrorPossible⟩

theorem StateInv.store_bounds {s : State} (h : StateInv s) :
    1 ≤ s.store.sampleCount.toNat ∧ s.store.sampleCount.toNat ≤ s.params.cap ∧
      s.store.playIndex.toNat < s.store.sampleCount.toNat := (legal_iff.1 h.legal).2

theorem StateInv.shape {s : State} (h : StateInv s) : Shape s.params.cap s.dec := (legal_iff.1 h.legal).1

/-- An ended message leaves the memory alone; with a store in bounds whose live bank is written, the invariant holds. -/
theorem inv_ended {s : State} (h : StateInv s) {e : Bits3} {st : PatternStore} (he : e ∈ possibleFlags)
    (hb : 1 ≤ st.sampleCount.toNat ∧ st.sampleCount.toNat ≤ s.params.cap ∧ st.playIndex.toNat < st.sampleCount.toNat)
    (hw : ∀ ch i, i < st.sampleCount.toNat → written s st.liveSel ch i) : StateInv (ended s e st) where
  legal := legal_iff.2 ⟨.idle, hb⟩
  memCanonical := h.memCanonical
  cellsExist := h.cellsExist
  liveWritten := hw
  shadowFilled := by simp [ended, DecoderState.initial]
  lastErrorPossible := he

theorem inv_moved {s : State} (h : StateInv s) {d : DecoderState} (hd : Shape s.params.cap d)
    (hc : d.shadowClaimed = 0b111#3 → ∀ ch j, arrived d ch j → s.dec.shadowClaimed = 0b111#3 ∧ arrived s.dec ch j) :
    StateInv ((clearOutputs s).withDec d) where
  legal := legal_iff.2 ⟨hd, h.store_bounds⟩
  memCanonical := h.memCanonical
  cellsExist := h.cellsExist
  liveWritten := h.liveWritten
  shadowFilled := fun hcl ch j ha => h.shadowFilled (hc hcl ch j ha).1 ch j (hc hcl ch j ha).2
  lastErrorPossible := h.lastErrorPossible

theorem written_stored {s : State} {b : Byte} {ch : Channel} {d : DecoderState} {i : Nat} (hi : i < s.params.cap)
    (k : Bank) (ch' : Channel) (j : Nat) :
    written (((clearOutputs s).withMem (s.mem.write (cellKey (shadowBank s) ch i) b)).withDec d) k ch' j ↔
      (k = shadowBank s ∧ ch' = ch ∧ j = i) ∨ written s k ch' j :=
  written_write (s := s)
    (t := ((clearOutputs s).withMem (s.mem.write (cellKey (shadowBank s) ch i) b)).withDec d) hi rfl rfl

theorem inv_stored {s : State} (h : StateInv s) {b : Byte} {ch : Channel} {d : DecoderState} (hd : Shape s.params.cap d)
    (hcl : s.dec.shadowClaimed = 0b111#3) (hi : s.dec.byteIndex.toNat < s.params.cap)
    (hc : ∀ ch' j, arrived d ch' j → arrived s.dec ch' j ∨ (ch' = ch ∧ j = s.dec.byteIndex.toNat)) :
    StateInv (((clearOutputs s).withMem (s.mem.write (cellKey (shadowBank s) ch s.dec.byteIndex.toNat) b)).withDec d) where
  legal := legal_iff.2 ⟨hd, h.store_bounds⟩
  memCanonical := Memory.write_wf _ _ _ h.memCanonical
  cellsExist := by
    intro cell hcell
    rcases Memory.mem_write hcell with rfl | hcell
    · exact ⟨_, _, _, hi, rfl⟩
    · exact h.cellsExist cell hcell
  liveWritten := fun ch' j hj => (written_stored hi _ ch' j).2 (.inr (h.liveWritten ch' j hj))
  shadowFilled := by
    intro _ ch' j ha
    refine (written_stored hi _ ch' j).2 ?_
    rcases hc ch' j ha with ha | ⟨rfl, rfl⟩
    · exact .inr (h.shadowFilled hcl ch' j ha)
    · exact .inl ⟨rfl, rfl, rfl⟩
  lastErrorPossible := h.lastErrorPossible

/-- Every byte step keeps the invariant (R128). -/
theorem inv_byteEffect {s t : State} {i : Instr} (h : StateInv s) (he : ByteEffect s i t) : StateInv t := by
  cases he with
  | moved hd hc _ => exact inv_moved h hd hc
  | stored hd _ _ _ hcl hi hc => exact inv_stored h hd hcl hi hc
  | unknown _ => exact inv_ended h (by decide) h.store_bounds h.liveWritten
  | badDelimiter _ he =>
    refine inv_ended h ?_ h.store_bounds h.liveWritten
    rcases raise_badDelimiter_cases he with he | he <;> rw [he] <;> decide
  | drained _ _ => exact inv_ended h (by decide) h.store_bounds h.liveWritten
  | committed _ hf hch _ hcl h1 hn =>
    refine inv_ended h (by decide) ⟨h1, hn, h1⟩ (fun ch i hi => h.shadowFilled hcl ch i ?_)
    simp only [arrived, hch, hf, if_true]
    cases ch
    · exact .inl ⟨by decide, hi⟩
    · exact .inl ⟨by decide, hi⟩
    · exact .inr ⟨rfl, hi⟩
  | frequencySet _ _ => exact inv_ended h (by decide) h.store_bounds h.liveWritten
  | amplitudeSet _ _ => exact inv_ended h (by decide) h.store_bounds h.liveWritten

/-- A tick keeps the invariant (R128, R140). -/
theorem inv_tick {s : State} (h : StateInv s) (o : TickOut) :
    StateInv (((clearOutputs s).withOut (some o)).withStore
      { s.store with playIndex := advance s.store.playIndex s.store.sampleCount }) where
  legal := by
    obtain ⟨h1, h2, h3⟩ := h.store_bounds
    refine legal_iff.2 ⟨h.shape, h1, h2, ?_⟩
    simp only [State.withStore_store, advance_toNat h3]
    split <;> omega
  memCanonical := h.memCanonical
  cellsExist := h.cellsExist
  liveWritten := h.liveWritten
  shadowFilled := h.shadowFilled
  lastErrorPossible := h.lastErrorPossible

theorem lt_resetCount {ch : Channel} {i : Nat} (hi : i < 1) (m : Memory) :
    m.afterReset.read (cellKey 0#1 ch i) = some 0x00#8 := by
  obtain rfl : i = 0 := by omega
  simp only [Memory.afterReset_eq, Memory.read_write]
  cases ch <;> simp [cellKey, channelIndex]

/-- The reset state meets the invariant from any state whose memory is canonical and lists existing bytes (R128). -/
theorem inv_reset {s : State} (hm : s.mem.wf = true)
    (hc : ∀ cell ∈ s.mem, ∃ k ch i, i < s.params.cap ∧ cell.1 = cellKey k ch i) : StateInv (resetStep s) where
  legal := legal_iff.2 ⟨.idle, Nat.le_refl 1, one_le_cap _, Nat.zero_lt_one⟩
  memCanonical := Memory.afterReset_wf _ hm
  cellsExist := by
    intro cell hcell
    rw [show (resetStep s).mem = s.mem.afterReset from rfl, Memory.afterReset_eq] at hcell
    rcases Memory.mem_write hcell with rfl | hcell
    · exact ⟨0#1, .c, 0, one_le_cap _, rfl⟩
    · rcases Memory.mem_write hcell with rfl | hcell
      · exact ⟨0#1, .b, 0, one_le_cap _, rfl⟩
      · rcases Memory.mem_write hcell with rfl | hcell
        · exact ⟨0#1, .a, 0, one_le_cap _, rfl⟩
        · exact hc cell hcell
  liveWritten := by
    intro ch i hi
    have hi : i < 1 := hi
    exact ⟨0x00#8, memRead_eq_ok.2 ⟨Nat.lt_of_lt_of_le hi (one_le_cap _), lt_resetCount hi _⟩⟩
  shadowFilled := by simp [resetStep, DecoderState.initial]
  lastErrorPossible := (by decide : Flag.none ∈ possibleFlags)

/-! ### A byte step from the invariant's states -/

/-- In a state of the invariant a tick answers a next state (R139: a tick cannot fail). -/
theorem exec_tick_completes {s : State} (h : StateInv s) : ∃ o, readTriple s = .ok o := by
  have hb := h.store_bounds
  obtain ⟨a, ha⟩ := h.liveWritten .a _ hb.2.2
  obtain ⟨b, hb'⟩ := h.liveWritten .b _ hb.2.2
  obtain ⟨v, hc⟩ := h.liveWritten .c _ hb.2.2
  exact ⟨⟨s.store.amplitude, a, b, v⟩, readTriple_eq_ok.2 ⟨ha, hb', hc, rfl⟩⟩

end Sys2Proof.Machine
end

