-- ==== Sys2Proof/Laws/PerInstr.lean ====
section
/-! SUPPORT. The statements made per instruction: one lemma for each constructor of Instr. -/

namespace Sys2Proof.Laws.EncodedLength

open Sys2Proof

/-- 30_encoding.md R63 to R65, R74: an instruction of the stream is exactly one byte, an event is none. -/
def Statement (i : Instr) : Prop := (encode i).length = if i.onStream then 1 else 0

theorem pat (p : PatByte) : Statement (.pat p) := by cases p <;> rfl

theorem freq (p : ShortByte) : Statement (.freq p) := by cases p <;> rfl

theorem amp (p : ShortByte) : Statement (.amp p) := by cases p <;> rfl

theorem unk (t : Byte) : Statement (.unk t) := rfl

theorem tick : Statement .tick := rfl

theorem reset : Statement .reset := rfl

end Sys2Proof.Laws.EncodedLength
end

