-- ==== Sys2Proof/Laws/Step.lean ====
section
/-! SUPPORT. Facts about one step and one event: what every instruction leaves alone, that a byte step of a legal state
completes, and what reset leaves of the memory. -/

namespace Sys2Proof.Machine

/-- A step that answers a next state has taken the first event and run its instruction. -/
theorem step_next {s t : State} (h : step s = .next t) :
    ∃ e rest i, s.events = e :: rest ∧ fetchEvent s e = .ok i ∧ exec i (s.withEvents rest) = .next t := by
  unfold step at h
  split at h
  · simp at h
  · rename_i e rest he
    split at h
    · rename_i i hi
      exact ⟨e, rest, i, he, hi, h⟩
    · rename_i r _
      cases r <;> simp [rejectOutcome] at h

/-- A byte step leaves the events to come and the parameters alone and puts out nothing. -/
theorem byteEffect_frame {i : Instr} {s t : State} (h : ByteEffect s i t) :
    t.events = s.events ∧ t.params = s.params ∧ t.out = none := by
  cases h <;> exact ⟨rfl, rfl, rfl⟩

/-- The two instructions that are no byte of the stream. -/
theorem not_onStream {i : Instr} (h : ¬i.onStream = true) : i = .tick ∨ i = .reset := by
  cases i <;> simp [Instr.onStream] at h ⊢

/-- No instruction changes the events to come or the parameters. -/
theorem exec_frame {i : Instr} {s t : State} (hx : exec i s = .next t) : t.events = s.events ∧ t.params = s.params := by
  by_cases hi : i.onStream = true
  · have h := byteEffect_frame (exec_byteEffect hi hx)
    exact ⟨h.1, h.2.1⟩
  · rcases not_onStream hi with rfl | rfl
    · obtain ⟨_, o, _, rfl⟩ := execTick_next.1 (show execTick s = .next t from hx)
      exact ⟨rfl, rfl⟩
    · rw [execReset_next.1 (show execReset s = .next t from hx)]
      exact ⟨rfl, rfl⟩

/-- In Idle every working register has its initial value. -/
theorem dec_of_idle {s : State} (hl : s.legal = true) (hk : s.dec.messageKind = .none) :
    s.dec = DecoderState.initial := (legal_iff.1 hl).1.idle_eq hk

/-- A byte `RESET` does not write keeps its value (R172). -/
theorem memRead_afterReset {s t : State} (hm : t.mem = s.mem.afterReset) (hp : t.params = s.params) (k : Bank)
    (ch : Channel) (i : Nat) : memRead t k ch i = if k = 0#1 ∧ i = 0 then .ok 0x00#8 else memRead s k ch i := by
  by_cases hi : i < s.params.cap
  · have hi' : i < 65536 := lt_of_lt_cap hi
    have key : ∀ ch', cellKey k ch i = cellKey 0#1 ch' 0 ↔ k = 0#1 ∧ ch = ch' ∧ i = 0 :=
      fun ch' => ⟨fun h => cellKey_inj hi' (by decide) h, by rintro ⟨rfl, rfl, rfl⟩; rfl⟩
    simp only [memRead, hm, hp, Memory.afterReset_eq, Memory.read_write, key, hi, if_true]
    by_cases hk : k = 0#1 ∧ i = 0
    · obtain ⟨rfl, rfl⟩ := hk
      cases ch <;> simp
    · have : ∀ ch', ¬(k = 0#1 ∧ ch = ch' ∧ i = 0) := fun ch' h => hk ⟨h.1, h.2.2⟩
      simp [this, hk]
  · have : i ≠ 0 := by have := one_le_cap s.params; omega
    simp [memRead, hp, hi, this]

/-- `n + m` steps are `n` steps and then `m`. -/
theorem run_add {n m : Nat} {s t : State} (h : run n s = .next t) : run (n + m) s = run m t := by
  induction n generalizing s with
  | zero =>
    simp only [run_zero, Host.Outcome.next.injEq] at h
    rw [h, Nat.zero_add]
  | succ n ih =>
    have hs : ∃ u, step s = .next u := by
      simp only [run, Host.Core.run, Sys2Proof.core] at h
      split at h
      · exact ⟨_, ‹_›⟩
      · simp at h
      · simp at h
    obtain ⟨u, hu⟩ := hs
    rw [run_succ hu] at h
    rw [show n + 1 + m = n + m + 1 by omega, run_succ hu, ih h]

end Sys2Proof.Machine
end

