-- ==== Sys2Proof/Laws/Run.lean ====
section
/-! SUPPORT. Runs over a sequence of events: the effect of one tick, that a byte step of a legal state completes, and the
induction over a sequence of ticks and bytes, packaged once. -/

namespace Sys2Proof.Machine

/-! ### The invariant and one instruction -/

/-- An instruction keeps the invariant, with the events taken or not. -/
theorem inv_exec {i : Instr} {s t : State} (h : StateInv s) (hx : exec i s = .next t) : StateInv t := by
  by_cases hi : i.onStream = true
  · exact inv_byteEffect h (exec_byteEffect hi hx)
  · rcases not_onStream hi with rfl | rfl
    · obtain ⟨_, o, _, rfl⟩ := execTick_next.1 (show execTick s = .next t from hx)
      exact inv_tick h o
    · rw [execReset_next.1 (show execReset s = .next t from hx)]
      exact inv_reset h.memCanonical h.cellsExist

/-! ### The index after several ticks (R140) -/

theorem advanceBy_zero {p n : Word} (h : p.toNat < n.toNat) : advanceBy p n 0 = p := by
  apply BitVec.eq_of_toNat_eq
  have := n.isLt
  simp [advanceBy, Nat.mod_eq_of_lt h]

theorem advanceBy_advance {p n : Word} (h : p.toNat < n.toNat) (k : Nat) :
    advanceBy (advance p n) n k = advanceBy p n (k + 1) := by
  have e : (advance p n).toNat = (p.toNat + 1) % n.toNat := by
    have := n.isLt
    have := Nat.mod_lt (p.toNat + 1) (show 0 < n.toNat by omega)
    simp [advance]
    omega
  unfold advanceBy
  rw [e, Nat.mod_add_mod, Nat.add_assoc, Nat.add_comm 1 k]

theorem advance_advanceBy {p n : Word} (h : p.toNat < n.toNat) (k : Nat) :
    advance (advanceBy p n k) n = advanceBy p n (k + 1) := by
  have := n.isLt
  have := Nat.mod_lt (p.toNat + k) (show 0 < n.toNat by omega)
  simp only [advance, advanceBy, BitVec.toNat_ofNat]
  rw [Nat.mod_eq_of_lt (show (p.toNat + k) % n.toNat < 2 ^ 16 by omega), Nat.mod_add_mod, Nat.add_assoc]

/-! ### The events of a sequence -/

theorem noReset_append {e f : List Event} : noReset (e ++ f) = (noReset e && noReset f) := by
  induction e with
  | nil => rfl
  | cons x e ih => cases x <;> simp [noReset, ih]

theorem eventBytes_append {e f : List Event} : eventBytes (e ++ f) = eventBytes e ++ eventBytes f := by
  induction e with
  | nil => rfl
  | cons x e ih => cases x <;> simp [eventBytes, ih]

theorem drawAt_tick (k : Nat) (e : List Event) : drawAt k (.tick :: e) = drawAt k e := by cases k <;> rfl

/-! ### One tick and one byte -/

/-- The state after a tick that put out `o`, with the events `r` still to come. -/
def ticked (s : State) (o : TickOut) (r : List Event) : State :=
  ((clearOutputs (s.withEvents r)).withOut (some o)).withStore
    { s.store with playIndex := advance s.store.playIndex s.store.sampleCount }

theorem step_tick {s : State} {rest : List Event} (h : StateInv s) (he : s.events = .tick :: rest) :
    ∃ o, step s = .next (ticked s o rest) ∧ readTriple s = .ok o := by
  obtain ⟨o, ho⟩ := exec_tick_completes h
  have hx : exec .tick (s.withEvents rest) = .next _ := execTick_next.2 ⟨h.legal, o, ho, rfl⟩
  exact ⟨o, by rw [step_cons he rfl]; exact hx, ho⟩

theorem step_byte {s t : State} {b : Byte} {deny : Bits3} {r : List Event} {i : Instr}
    (he : s.events = .byte b deny :: r) (hd : decode s.dec.messageKind s.dec.fieldKind deny [b] = .ok (i, []))
    (hx : exec i (s.withEvents r) = .next t) : step s = .next t := by
  rw [step_cons (i := i) he (by simp [fetchEvent, hd, Except.map]), hx]

theorem delimiter_completes {s : State} {ch : Channel} (hl : s.legal = true) (hk : s.dec.messageKind = .pattern)
    (hf : s.dec.fieldKind = .delimiter) (hc : s.dec.activeChannel = .one ch) (b : Byte) :
    ∃ t, exec (.pat (.delimiter b)) s = .next t := by
  have key : ∃ t, delimiterStep b (clearOutputs s) = .next t := by
    unfold delimiterStep
    simp only [clearOutputs_dec, hc]
    by_cases hb : b = Config.delim
    · cases ch <;> simp [hb, nextChannel]
    · simp [hb]
  obtain ⟨t, ht⟩ := key
  exact ⟨t, by simp [exec, execPat, whenLegal_of_legal hl, atField, hk, hf, ht]⟩

/-- In a legal state every byte decodes to an instruction of the stream, and the instruction completes (R85). -/
theorem byte_completes {s : State} (hl : s.legal = true) (b : Byte) (deny : Bits3) :
    ∃ i t, decode s.dec.messageKind s.dec.fieldKind deny [b] = .ok (i, []) ∧ i.onStream = true ∧ exec i s = .next t := by
  have hs := (legal_iff.1 hl).1
  generalize hd : s.dec = d at hs
  cases hs
  · rcases type_cases b with rfl | rfl | rfl | hb
    · exact ⟨.pat .typeByte, _, rfl, rfl, by simp [exec, execPat, whenLegal_of_legal hl, enterMessage, hd, DecoderState.initial]; rfl⟩
    · exact ⟨.freq .typeByte, _, rfl, rfl, by simp [exec, execFreq, whenLegal_of_legal hl, enterMessage, hd, DecoderState.initial]; rfl⟩
    · exact ⟨.amp .typeByte, _, rfl, rfl, by simp [exec, execAmp, whenLegal_of_legal hl, enterMessage, hd, DecoderState.initial]; rfl⟩
    · exact ⟨.unk b, _, by simp [decode, decodeByte, DecoderState.initial, hb, Except.map], rfl, by simp [exec, execUnk, whenLegal_of_legal hl, unknownStep, hb, hd, DecoderState.initial]; rfl⟩
  · exact ⟨.freq (.payload b), _, rfl, rfl, by simp [exec, execFreq, whenLegal_of_legal hl, frequencyStep, spliceIndex, hd, DecoderState.initial]; rfl⟩
  · exact ⟨.freq (.payload b), _, rfl, rfl, by simp [exec, execFreq, whenLegal_of_legal hl, frequencyStep, spliceIndex, hd, DecoderState.initial]; rfl⟩
  · exact ⟨.amp (.payload b), _, rfl, rfl, by simp [exec, execAmp, whenLegal_of_legal hl, amplitudeStep, spliceIndex, hd, DecoderState.initial]; rfl⟩
  · exact ⟨.amp (.payload b), _, rfl, rfl, by simp [exec, execAmp, whenLegal_of_legal hl, amplitudeStep, spliceIndex, hd, DecoderState.initial]; rfl⟩
  · exact ⟨.pat (.length b deny), _, rfl, rfl, by simp [exec, execPat, whenLegal_of_legal hl, atField, lengthStep, spliceIndex, hd, DecoderState.initial]; rfl⟩
  · exact ⟨.pat (.length b deny), _, rfl, rfl, by simp [exec, execPat, whenLegal_of_legal hl, atField, lengthStep, spliceIndex, hd, DecoderState.initial]; rfl⟩
  · rename_i ch i n hi hn
    have hcap : i.toNat < (clearOutputs s).params.cap := Nat.lt_of_lt_of_le hi hn
    exact ⟨.pat (.data b), _, rfl, rfl, by simp [exec, execPat, whenLegal_of_legal hl, atField, dataStep, inError, Flag.none, hd, DecoderState.initial, memWrite_eq b hcap]; rfl⟩
  · exact ⟨.pat (.data b), _, rfl, rfl, by simp [exec, execPat, whenLegal_of_legal hl, atField, dataStep, inError, Flag.none, Flag.allocationFailure, hd, DecoderState.initial]; rfl⟩
  · rename_i ch n h1 hn
    obtain ⟨t, ht⟩ := delimiter_completes (ch := ch) hl (by rw [hd]) (by rw [hd]) (by rw [hd]) b
    exact ⟨.pat (.delimiter b), t, rfl, rfl, ht⟩
  · rename_i ch n
    obtain ⟨t, ht⟩ := delimiter_completes (ch := ch) hl (by rw [hd]) (by rw [hd]) (by rw [hd]) b
    exact ⟨.pat (.delimiter b), t, rfl, rfl, ht⟩

/-! ### Ticks and bytes one after another -/

/-- A predicate on the events left and the state that every tick and every byte keeps holds at the end of the events. -/
theorem run_events (P : List Event → State → Prop)
    (htick : ∀ s e r o, StateInv s → readTriple s = .ok o → P (.tick :: e) s → P e (ticked s o r))
    (hbyte : ∀ s b deny e r, StateInv s → s.events = .byte b deny :: r → P (.byte b deny :: e) s →
      ∃ t, step s = .next t ∧ P e t) :
    ∀ (e rest : List Event) (s : State), noReset e = true → StateInv s → s.events = e ++ rest → P e s →
      ∃ t, run e.length s = .next t ∧ P [] t ∧ StateInv t ∧ t.events = rest := by
  intro e
  induction e with
  | nil =>
    intro rest s _ hi he hp
    exact ⟨s, rfl, hp, hi, he⟩
  | cons ev e ih =>
    intro rest s hr hi he hp
    cases ev with
    | byte b deny =>
      obtain ⟨t, ht, hpt⟩ := hbyte s b deny e _ hi he hp
      obtain ⟨e', r', i, h1, h2, h3⟩ := step_next ht
      rw [he, List.cons_append, List.cons.injEq] at h1
      obtain ⟨rfl, rfl⟩ := h1
      obtain ⟨u, hu, h⟩ := ih rest t hr (inv_exec (inv_of_withEvents.2 hi) h3) (exec_frame h3).1 hpt
      exact ⟨u, by rw [List.length_cons, run_succ ht, hu], h⟩
    | tick =>
      obtain ⟨o, ht, ho⟩ := step_tick (rest := e ++ rest) hi he
      have hpt := htick s e (e ++ rest) o hi ho hp
      obtain ⟨u, hu, h⟩ :=
        ih rest _ hr (inv_tick (s := s.withEvents (e ++ rest)) (inv_of_withEvents.2 hi) o) rfl hpt
      exact ⟨u, by rw [List.length_cons, run_succ ht]; exact hu, h⟩
    | reset => simp [noReset] at hr

/-- The same for events that end with a byte, with what its step leaves as the conclusion. -/
theorem run_message (P : List Event → State → Prop) (F : State → Prop)
    (htick : ∀ s e r o, StateInv s → P (.tick :: e) s → P e (ticked s o r))
    (hbyte : ∀ s b deny e r, StateInv s → eventBytes e ≠ [] → s.events = .byte b deny :: r → P (.byte b deny :: e) s →
      ∃ t, step s = .next t ∧ P e t)
    (hlast : ∀ s b deny r, StateInv s → s.events = .byte b deny :: r → P [.byte b deny] s →
      ∃ t, step s = .next t ∧ F t)
    (e rest : List Event) (s : State) (hr : noReset e = true) (hl : ∃ e' b deny, e = e' ++ [.byte b deny])
    (hi : StateInv s) (he : s.events = e ++ rest) (hp : P e s) :
    ∃ t, run e.length s = .next t ∧ F t ∧ t.events = rest := by
  obtain ⟨e', b, deny, rfl⟩ := hl
  obtain ⟨u, hu, hpu, hiu, heu⟩ := run_events (fun e s => P (e ++ [.byte b deny]) s)
    (fun s e r o hi _ hp => htick s _ r o hi hp)
    (fun s b' d' e r hi he hp => hbyte s b' d' _ r hi (by simp [eventBytes_append, eventBytes]) he hp)
    e' (.byte b deny :: rest) s (by simp [noReset_append] at hr; exact hr.1) hi (by simpa using he) hp
  obtain ⟨t, ht, hf⟩ := hlast u b deny _ hiu heu hpu
  obtain ⟨e'', r', i, h1, h2, h3⟩ := step_next ht
  rw [heu, List.cons.injEq] at h1
  obtain ⟨rfl, rfl⟩ := h1
  refine ⟨t, ?_, hf, (exec_frame h3).1⟩
  rw [List.length_append, run_add hu]
  exact (run_succ ht).trans rfl

end Sys2Proof.Machine
end

