-- ==== Sys2Proof/Tests/Slice0.lean ====
section
/-! SUPPORT. Small tests, with expected results from spec/95_test_vectors.md or worked out by hand from the rule named, and
one witness for the hypotheses of each obligation that has some. -/

namespace Sys2Proof.Tests

open Sys2Proof Sys2Proof.Machine

/-! ### Well-formedness: an ill-formed term for each check -/

/-- R65: an assigned type byte is no UNK. -/
theorem test_wellFormed_unk :
    (Instr.unk 0x01#8).wellFormed = false ∧ (Instr.unk 0x02#8).wellFormed = false ∧
      (Instr.unk 0x03#8).wellFormed = false ∧ (Instr.unk 0x00#8).wellFormed = true := by decide

/-- R65: the same for the whole message. -/
theorem test_wellFormed_message_unk :
    (Message.unk 0x03#8).wellFormed = false ∧ (Message.unk 0x04#8).wellFormed = true := by decide

/-- R64: the three channels have the same number of bytes. -/
theorem test_wellFormed_lengths :
    (Message.pat [1] [2, 3] [4]).wellFormed = false ∧ (Message.pat [1] [2] []).wellFormed = false ∧
      (Message.patBadB [1] [] 0x00#8).wellFormed = false ∧ (Message.patBadC [1] [2, 3] [4] 0x00#8).wellFormed = false ∧
        (Message.patBadC [1] [2] [] 0x00#8).wellFormed = false ∧ (Message.pat [1] [2] [3]).wellFormed = true := by
  decide

/-- R66: the byte that ends a pattern message early is not the delimiter. -/
theorem test_wellFormed_delimiter :
    (Message.patBadA [1] 0x55#8).wellFormed = false ∧ (Message.patBadB [1] [2] 0x55#8).wellFormed = false ∧
      (Message.patBadC [1] [2] [3] 0x55#8).wellFormed = false ∧ (Message.patBadA [] 0x54#8).wellFormed = true := by
  decide

/-- R64: a length that does not fit 16 bits. -/
theorem test_wellFormed_too_long (d : Byte) :
    (Message.pat (List.replicate 65536 d) (List.replicate 65536 d) (List.replicate 65536 d)).wellFormed = false ∧
      (Message.patBadA (List.replicate 65536 d) 0x00#8).wellFormed = false := by
  simp only [Message.wellFormed, fitsLength, List.length_replicate]
  decide

/-! ### Decoding: words written out from 30_encoding.md R63 to R65 -/

/-- R62, R64: 0x01 in Idle; then the fields of a pattern message. -/
theorem test_decode_pat :
    decode .none .none 0#3 [0b00000001#8] = .ok (.pat .typeByte, []) ∧
      decode .pattern .length 0b010#3 [0b00000001#8] = .ok (.pat (.length 0x01#8 0b010#3), []) ∧
        decode .pattern .data 0#3 [0b01010101#8] = .ok (.pat (.data 0x55#8), []) ∧
          decode .pattern .delimiter 0#3 [0b01010101#8] = .ok (.pat (.delimiter 0x55#8), []) := by decide

/-- R62, R63: 0x02 in Idle, and a payload byte that looks like a type byte. -/
theorem test_decode_freq :
    decode .none .none 0#3 [0b00000010#8, 0x10#8] = .ok (.freq .typeByte, [0x10#8]) ∧
      decode .frequency .none 0#3 [0b00000001#8] = .ok (.freq (.payload 0x01#8), []) := by decide

/-- R62, R63: 0x03 in Idle, and a payload byte. -/
theorem test_decode_amp :
    decode .none .none 0#3 [0b00000011#8] = .ok (.amp .typeByte, []) ∧
      decode .amplitude .none 0#3 [0b01010101#8] = .ok (.amp (.payload 0x55#8), []) := by decide

/-- R62, R65: any other byte in Idle; nothing to read; no field to read it in (R111). -/
theorem test_decode_unk :
    decode .none .none 0#3 [0b01010101#8] = .ok (.unk 0x55#8, []) ∧
      decode .none .none 0#3 [0b11111111#8] = .ok (.unk 0xFF#8, []) ∧
        decode .none .none 0#3 [] = .error .endOfStream ∧ decode .pattern .none 0#3 [0x00#8] = .error .noField := by
  decide

/-- The bytes of the document's two examples (95_test_vectors.md S1) and of a rejected message (S2). -/
theorem test_parse_examples :
    parseMessage [0x02, 0x64, 0x00] = some (.freq 100#16, []) ∧
      parseMessage [0x01, 0x03, 0x00, 1, 2, 3, 0x55, 4, 5, 6, 0x55, 7, 8, 9, 0x55] =
          some (.pat [1, 2, 3] [4, 5, 6] [7, 8, 9], []) ∧
        parseMessage [0x01, 0x02, 0x00, 9, 9, 0x99, 0x07] = some (.patBadA [9, 9] 0x99#8, [0x07#8]) := by decide

/-- The rows of a table word are laid out first byte lowest (R74), and the next step runs them after reset. -/
theorem test_tableWord :
    wordBytes 24 0x271002 = [0x02#8, 0x10#8, 0x27#8] ∧ tableWordBytes 8 0x01 = [0x01#8, 0x00#8, 0x00#8, 0x00#8] ∧
      decodeTableWord 24 0x271003 = some (.amp .typeByte) := by decide

/-! ### Small states -/

/-- An instance with `CAP = 8`. -/
def small : Params := { capPred := 7, resetFrequency := 0xBEEF#16 }

/-- Its reset state with events to come. -/
def idle (e : List Event) : State := (State.resetOf small).withEvents e

/-- The reset state with another Decoder State. -/
def at' (d : DecoderState) : State := (State.resetOf small).withDec d

/-- A row "filling" of R33. -/
def filling (fk : FieldKind) (ch : Channel) (i n : Word) : DecoderState :=
  { DecoderState.initial with
    messageKind := .pattern, fieldKind := fk, activeChannel := .one ch, byteIndex := i, pendingLength := n,
    shadowClaimed := 0b111#3 }

/-- A row "drain" of R33. -/
def draining (fk : FieldKind) (ch : Channel) (i n : Word) : DecoderState :=
  { DecoderState.initial with
    messageKind := .pattern, fieldKind := fk, activeChannel := .one ch, byteIndex := i, pendingLength := n,
    error := 0b010#3 }

/-- A short message of which the low byte has arrived. -/
def shortDec (mk : MessageKind) (i : Word) (f a : Word) : DecoderState :=
  { DecoderState.initial with messageKind := mk, byteIndex := i, pendingFrequency := f, pendingAmplitude := a }

/-- The length field. -/
def lengthDec (i n : Word) : DecoderState :=
  { DecoderState.initial with messageKind := .pattern, fieldKind := .length, byteIndex := i, pendingLength := n }

/-- A = 01 02, B = 03 04, C = 05 06 in bank 1. -/
def playingMem : Memory :=
  [(cellKey 1#1 .a 0, 0x01#8), (cellKey 1#1 .a 1, 0x02#8), (cellKey 1#1 .b 0, 0x03#8), (cellKey 1#1 .b 1, 0x04#8),
    (cellKey 1#1 .c 0, 0x05#8), (cellKey 1#1 .c 1, 0x06#8)]

/-- That pattern is live. -/
def playing (p : Word) : State :=
  { State.resetOf small with
    store := { frequency := 100#16, amplitude := 255#16, liveSel := 1#1, sampleCount := 2#16, playIndex := p }
    mem := playingMem }

/-- The next state, if there is one. -/
def nextOf (r : Result) : Option State :=
  match r with
  | .next t => some t
  | .fault _ => none
  | .refused _ => none

/-- A field of the next state. -/
def after {α : Type} (i : Instr) (s : State) (f : State → α) : Option α := (nextOf (exec i s)).map f

theorem exists_next {r : Result} (h : (nextOf r).isSome = true) : ∃ t, r = .next t := by
  cases r <;> simp [nextOf] at h ⊢

theorem eq_next {r : Result} {t : State} (h : nextOf r = some t) : r = .next t := by
  cases r <;> simp [nextOf] at h ⊢
  exact h

/-! ### One step of each instruction -/

/-- 95_test_vectors.md 2.5: sample bytes to the shadow bank of channel A, with 55 as data at the last index; in drain
none. -/
theorem test_pat_data :
    after (.pat (.data 0x55#8)) (at' (filling .data .a 2#16 3#16))
          (fun t => (t.dec, t.mem.read (cellKey 1#1 .a 2), t.mem.length)) =
        some (filling .delimiter .a 0#16 3#16, some 0x55#8, 4) ∧
      after (.pat (.data 0x7F#8)) (at' (draining .data .a 0#16 3#16)) (fun t => (t.dec, t.mem.length)) =
        some (draining .data .a 1#16 3#16, 3) := by decide

/-- 95_test_vectors.md 2.5: the last good delimiter commits, a wrong one in drain ends the message with both flags. -/
theorem test_pat_delimiter :
    after (.pat (.delimiter 0x55#8)) (at' (filling .delimiter .c 0#16 3#16))
          (fun t => (t.dec, t.store, t.done)) =
        some
          (DecoderState.initial,
            { frequency := 0xBEEF#16, amplitude := 0#16, liveSel := 1#1, sampleCount := 3#16, playIndex := 0#16 },
            some { kind := .pattern, flags := 0b000#3 }) ∧
      after (.pat (.delimiter 0x01#8)) (at' (draining .delimiter .b 0#16 3#16))
          (fun t => (t.dec, t.store.liveSel, t.lastError)) =
        some (DecoderState.initial, 0#1, 0b110#3) := by decide

/-- 95_test_vectors.md 2.3: `02 10 27` sets 0x2710, low byte first. -/
theorem test_freq_payload :
    after (.freq (.payload 0x10#8)) (at' (shortDec .frequency 0#16 0#16 0#16)) (fun t => (t.dec, t.store.frequency)) =
        some (shortDec .frequency 1#16 0x0010#16 0#16, 0xBEEF#16) ∧
      after (.freq (.payload 0x27#8)) (at' (shortDec .frequency 1#16 0x0010#16 0#16))
          (fun t => (t.dec, t.store.frequency, t.store.amplitude, t.done)) =
        some (DecoderState.initial, 0x2710#16, 0#16, some { kind := .frequency, flags := 0b000#3 }) := by decide

/-- 95_test_vectors.md 2.3: `03 34 12` sets 0x1234, low byte first. -/
theorem test_amp_payload :
    after (.amp (.payload 0x34#8)) (at' (shortDec .amplitude 0#16 0#16 0#16)) (fun t => (t.dec, t.store.amplitude)) =
        some (shortDec .amplitude 1#16 0#16 0x0034#16, 0#16) ∧
      after (.amp (.payload 0x12#8)) (at' (shortDec .amplitude 1#16 0#16 0x0034#16))
          (fun t => (t.dec, t.store.amplitude, t.store.frequency, t.done)) =
        some (DecoderState.initial, 0x1234#16, 0xBEEF#16, some { kind := .amplitude, flags := 0b000#3 }) := by decide

/-- 95_test_vectors.md 2.2: the delimiter value is not a type. -/
theorem test_unk :
    after (.unk 0x55#8) (idle []) (fun t => (t.dec, t.lastError, t.done)) =
      some (DecoderState.initial, 0b001#3, some { kind := .none, flags := 0b001#3 }) := by decide

/-- 95_test_vectors.md 2.8: the wrap, and the triple read. -/
theorem test_tick :
    after .tick (playing 1#16) (fun t => (t.store.playIndex, t.out)) =
        some (0#16, some { amplitude := 255#16, sampleA := 0x02#8, sampleB := 0x04#8, sampleC := 0x06#8 }) ∧
      after .tick (idle []) (fun t => (t.store.playIndex, t.out)) =
        some (0#16, some { amplitude := 0#16, sampleA := 0x00#8, sampleB := 0x00#8, sampleC := 0x00#8 }) := by decide

/-- 95_test_vectors.md 2.10: reset in the middle of a message; bank 1 keeps its bytes. -/
theorem test_reset :
    after .reset ((playing 1#16).withDec (filling .data .b 1#16 2#16))
        (fun t => (t.dec, t.store, t.mem.read (cellKey 0#1 .c 0), t.mem.read (cellKey 1#1 .a 1))) =
      some (DecoderState.initial, PatternStore.resetOf small, some 0x00#8, some 0x02#8) := by decide

/-- The very next step from reset runs the type byte that `withFetchWord` places (log 12). -/
theorem test_withFetchWord :
    (nextOf (step (State.reset.withFetchWord 8 0x02))).map (fun t => (t.dec.messageKind, t.events.length)) =
      some (.frequency, 2) := by decide

/-! ### The invariant at small states -/

theorem inv_small : StateInv (State.resetOf small) := by
  generalize small = p
  have h := inv_reset (s := { State.resetOf p with mem := [] }) (by rfl) (fun _ h => nomatch h)
  exact ⟨h.legal, h.memCanonical, h.cellsExist, h.liveWritten, h.shadowFilled, h.lastErrorPossible⟩

theorem inv_idle (e : List Event) : StateInv (idle e) := inv_of_withEvents.2 inv_small

theorem playingMem_read :
    ∀ ch : Channel,
      (playingMem.read (cellKey 1#1 ch 0)).isSome = true ∧ (playingMem.read (cellKey 1#1 ch 1)).isSome = true := by
  intro ch
  cases ch <;> decide

theorem playing_live (p : Word) (ch : Channel) (i : Nat) (hi : i < 2) : written (playing p) 1#1 ch i := by
  have hs : (playingMem.read (cellKey 1#1 ch i)).isSome = true := by
    obtain rfl | rfl : i = 0 ∨ i = 1 := by omega
    · exact (playingMem_read ch).1
    · exact (playingMem_read ch).2
  obtain ⟨v, hv⟩ := Option.isSome_iff_exists.1 hs
  exact ⟨v, memRead_eq_ok.2 ⟨show i < small.cap from Nat.lt_trans hi (by decide), hv⟩⟩

theorem inv_playing (p : Word) (hp : p.toNat < 2) (e : List Event) : StateInv ((playing p).withEvents e) where
  legal := legal_iff.2 ⟨.idle, by show 1 ≤ 2; decide, by show 2 ≤ small.cap; decide, hp⟩
  memCanonical := by show Memory.wf playingMem = true; decide
  cellsExist := by
    show ∀ cell ∈ playingMem, ∃ k ch i, i < small.cap ∧ cell.1 = cellKey k ch i
    simp only [playingMem, List.forall_mem_cons, List.not_mem_nil, false_implies, implies_true, and_true]
    exact ⟨⟨_, _, 0, by decide, rfl⟩, ⟨_, _, 1, by decide, rfl⟩, ⟨_, _, 0, by decide, rfl⟩, ⟨_, _, 1, by decide, rfl⟩,
      ⟨_, _, 0, by decide, rfl⟩, ⟨_, _, 1, by decide, rfl⟩⟩
  liveWritten := fun ch i hi => playing_live p ch i hi
  shadowFilled := fun h => by cases h
  lastErrorPossible := by show (0#3) ∈ possibleFlags; decide

/-! ### Witnesses: the hypotheses of each obligation hold together -/

theorem witness_DecodeUndoesEncode :
    ((Instr.pat (.length 0xFF#8 0b111#3)).wellFormed = true ∧ (Instr.pat (.length 0xFF#8 0b111#3)).onStream = true) ∧
      (Instr.unk 0x04#8).wellFormed = true ∧ (Instr.unk 0x04#8).onStream = true := by decide

theorem witness_PatternMessageLayout :
    (([] : List Byte).length < 65536 ∧ ([] : List Byte).length = ([] : List Byte).length) ∧
      [1#8, 2#8].length < 65536 ∧ [3#8, 4#8].length = [1#8, 2#8].length ∧ [5#8, 6#8].length = [1#8, 2#8].length := by
  decide

theorem witness_ParseUndoesEncodeMessage :
    (Message.freq 0xFFFF#16).wellFormed = true ∧ (Message.unk 0xFF#8).wellFormed = true ∧
      (Message.pat [] [] []).wellFormed = true ∧ (Message.pat [0x55] [0x01] [0x02]).wellFormed = true ∧
        (Message.patBadA [0x55] 0x54#8).wellFormed = true ∧ (Message.patBadB [] [] 0x01#8).wellFormed = true ∧
          (Message.patBadC [1] [2] [3] 0x00#8).wellFormed = true := by decide

theorem witness_ParsedMessageIsItsBytes :
    parseMessage [0x01, 0x01, 0x00, 0xAA, 0x55, 0xBB, 0x00, 0x02] = some (.patBadB [0xAA] [0xBB] 0x00#8, [0x02#8]) := by
  decide

theorem witness_TypeByteStartsMessage : (idle []).legal = true ∧ (idle []).dec.messageKind = .none := by decide

theorem witness_UnassignedTypeByteRejected :
    (idle []).legal = true ∧ (idle []).dec.messageKind = .none ∧
      ∀ t ∈ [0x00#8, 0x04#8, 0xFF#8], t ≠ 0x01#8 ∧ t ≠ 0x02#8 ∧ t ≠ 0x03#8 := by decide

theorem witness_FreqPayloadStep :
    ((at' (shortDec .frequency 0#16 0#16 0#16)).legal = true ∧
        (at' (shortDec .frequency 0#16 0#16 0#16)).dec.messageKind = .frequency ∧
          (at' (shortDec .frequency 0#16 0#16 0#16)).dec.byteIndex = 0#16) ∧
      (at' (shortDec .frequency 1#16 0x00FF#16 0#16)).legal = true ∧
        (at' (shortDec .frequency 1#16 0x00FF#16 0#16)).dec.messageKind = .frequency ∧
          (at' (shortDec .frequency 1#16 0x00FF#16 0#16)).dec.byteIndex = 1#16 := by decide

theorem witness_AmpPayloadStep :
    ((at' (shortDec .amplitude 0#16 0#16 0#16)).legal = true ∧
        (at' (shortDec .amplitude 0#16 0#16 0#16)).dec.messageKind = .amplitude ∧
          (at' (shortDec .amplitude 0#16 0#16 0#16)).dec.byteIndex = 0#16) ∧
      (at' (shortDec .amplitude 1#16 0#16 0x00FF#16)).legal = true ∧
        (at' (shortDec .amplitude 1#16 0#16 0x00FF#16)).dec.messageKind = .amplitude ∧
          (at' (shortDec .amplitude 1#16 0#16 0x00FF#16)).dec.byteIndex = 1#16 := by decide

/-- The length field with its first byte at most received. -/
def lengthHypotheses (s : State) : Prop :=
  s.legal = true ∧ s.dec.messageKind = .pattern ∧ s.dec.fieldKind = .length

/-- The clauses of the length step, at `len` = 0, 1, `CAP`, `CAP + 1`, 65535. -/
theorem witness_LengthFieldStep :
    (lengthHypotheses (at' (lengthDec 0#16 0#16)) ∧ (at' (lengthDec 0#16 0#16)).dec.byteIndex = 0#16) ∧
      (∀ lo ∈ [0, 1, 8, 9, 255],
        lengthHypotheses (at' (lengthDec 1#16 (.ofNat 16 lo))) ∧
          (at' (lengthDec 1#16 (.ofNat 16 lo))).dec.byteIndex = 1#16) ∧
        joinBytes 0x00#8 (loByte 0x0000#16) = 0#16 ∧
          joinBytes 0x00#8 (loByte 0x0001#16) = 1#16 ∧ joinBytes 0x00#8 (loByte 0x0008#16) = 8#16 ∧
            joinBytes 0x00#8 (loByte 0x0009#16) = 9#16 ∧ joinBytes 0xFF#8 (loByte 0x00FF#16) = 65535#16 ∧
              small.cap = 8 := by
  unfold lengthHypotheses
  decide

/-- The states of a pattern message with its data expected. -/
def dataHypotheses (s : State) : Prop :=
  s.legal = true ∧ s.dec.messageKind = .pattern ∧ s.dec.fieldKind = .data

/-- First and last sample of the largest and of the smallest field, and a drain of more than `CAP`. -/
theorem witness_DataByteStep :
    dataHypotheses (at' (filling .data .a 0#16 8#16)) ∧ dataHypotheses (at' (filling .data .c 7#16 8#16)) ∧
      dataHypotheses (at' (filling .data .b 0#16 1#16)) ∧
        dataHypotheses (at' (draining .data .c 65534#16 65535#16)) := by
  unfold dataHypotheses
  decide

theorem witness_DataByteMemoryFrame :
    (∃ t, exec (.pat (.data 0x7F#8)) (at' (filling .data .c 7#16 8#16)) = .next t) ∧
      ∃ t, exec (.pat (.data 0x7F#8)) (at' (draining .data .a 0#16 9#16)) = .next t :=
  ⟨exists_next (by decide), exists_next (by decide)⟩

/-- The states of a pattern message with a delimiter expected. -/
def delimiterHypotheses (s : State) (ch : Channel) : Prop :=
  s.legal = true ∧ s.dec.messageKind = .pattern ∧ s.dec.fieldKind = .delimiter ∧ s.dec.activeChannel = .one ch

/-- After A and B, not in drain, and in drain with no data. -/
theorem witness_GoodDelimiterMovesOn :
    delimiterHypotheses (at' (filling .delimiter .a 0#16 3#16)) .a ∧
      delimiterHypotheses (at' (filling .delimiter .b 0#16 8#16)) .b ∧
        delimiterHypotheses (at' (draining .delimiter .a 0#16 0#16)) .a := by
  unfold delimiterHypotheses
  decide

theorem witness_BadDelimiterRejects :
    (delimiterHypotheses (at' (filling .delimiter .c 0#16 1#16)) .c ∧
        (at' (filling .delimiter .c 0#16 1#16)).dec.error = 0b000#3) ∧
      (delimiterHypotheses (at' (draining .delimiter .a 0#16 0#16)) .a ∧
        (at' (draining .delimiter .a 0#16 0#16)).dec.error ≠ 0b000#3) ∧ 0x54#8 ≠ 0x55#8 := by
  unfold delimiterHypotheses
  decide

theorem witness_LastDelimiterEndsMessage :
    (delimiterHypotheses (at' (filling .delimiter .c 0#16 8#16)) .c ∧
        (at' (filling .delimiter .c 0#16 8#16)).dec.error = 0b000#3) ∧
      delimiterHypotheses (at' (draining .delimiter .c 0#16 0#16)) .c ∧
        (at' (draining .delimiter .c 0#16 0#16)).dec.error ≠ 0b000#3 := by
  unfold delimiterHypotheses
  decide

theorem witness_DrainStoresNothing :
    (Instr.pat (.data 0x7F#8)).onStream = true ∧ (at' (draining .data .a 0#16 9#16)).dec.messageKind = .pattern ∧
      (at' (draining .data .a 0#16 9#16)).dec.error ≠ 0b000#3 ∧
        ∃ t, exec (.pat (.data 0x7F#8)) (at' (draining .data .a 0#16 9#16)) = .next t :=
  ⟨rfl, rfl, by decide, exists_next (by decide)⟩

/-- The last index of the live pattern. -/
theorem witness_TickReadsAndAdvances :
    StateInv ((playing 1#16).withEvents []) ∧ (playing 1#16).legal = true ∧ memRead (playing 1#16) 1#1 .a 1 = .ok 0x02#8 ∧
      memRead (playing 1#16) 1#1 .b 1 = .ok 0x04#8 ∧ memRead (playing 1#16) 1#1 .c 1 = .ok 0x06#8 :=
  ⟨inv_playing _ (by decide) _, by decide, memRead_eq_ok.2 (by decide), memRead_eq_ok.2 (by decide), memRead_eq_ok.2 (by decide)⟩

/-- Both clauses: the increment and the return to 0. -/
theorem witness_TickAdvanceStaysInRange :
    ((∃ t, exec .tick (playing 0#16) = .next t) ∧ (playing 0#16).store.playIndex.toNat + 1 < 2) ∧
      (∃ t, exec .tick (playing 1#16) = .next t) ∧ (playing 1#16).store.playIndex.toNat + 1 = 2 :=
  ⟨⟨exists_next (by decide), by decide⟩, exists_next (by decide), by decide⟩

theorem witness_TickOnUnwrittenSampleFaults :
    ((playing 0#16).withMem []).legal = true ∧ ¬written ((playing 0#16).withMem []) 1#1 .b 0 := by
  refine ⟨by decide, ?_⟩
  rintro ⟨v, hv⟩
  exact nomatch (memRead_eq_ok.1 hv).2

theorem witness_TicksPlayThePattern :
    StateInv ((playing 1#16).withEvents (List.replicate (2 + 1) .tick ++ [.byte 0x00#8 0#3])) :=
  inv_playing _ (by decide) _

theorem witness_ReadViewIsWhole : StateInv ((playing 1#16).withEvents []) := inv_playing _ (by decide) _

/-- Two states that differ in what the consumer cannot see. -/
theorem witness_TickSeesOnlyTheReadView :
    (playing 1#16).legal = true ∧ ((playing 1#16).withDec (lengthDec 1#16 5#16)).legal = true ∧
      currentPattern (playing 1#16) = currentPattern ((playing 1#16).withDec (lengthDec 1#16 5#16)) ∧
        ∃ t, exec .tick (playing 1#16) = .next t :=
  ⟨by decide, by decide, rfl, exists_next (by decide)⟩

theorem witness_ResetWinsOverCoincidentEvents :
    (idle [.reset (some 0x01#8) true]).events = .reset (some 0x01#8) true :: [] := rfl

theorem witness_StepRunsDecodedInstruction :
    ((idle [.byte 0x02#8 0#3]).events = .byte 0x02#8 0#3 :: [] ∧
        decode (idle [.byte 0x02#8 0#3]).dec.messageKind (idle [.byte 0x02#8 0#3]).dec.fieldKind 0#3 [0x02#8] =
          .ok (.freq .typeByte, [])) ∧
      (idle [.tick]).events = .tick :: [] := ⟨⟨rfl, by decide⟩, rfl⟩

theorem witness_StepKeepsInvariant :
    StateInv (idle [.byte 0x02#8 0#3]) ∧ ∃ t, step (idle [.byte 0x02#8 0#3]) = .next t :=
  ⟨inv_idle _, exists_next (by decide)⟩

theorem witness_StepAlwaysCompletes :
    (StateInv (idle [.byte 0x02#8 0#3]) ∧ (idle [.byte 0x02#8 0#3]).events = .byte 0x02#8 0#3 :: []) ∧
      (StateInv (idle [.tick]) ∧ (idle [.tick]).events = .tick :: []) ∧
        StateInv (idle [.reset none true]) ∧ (idle [.reset none true]).events = .reset none true :: [] :=
  ⟨⟨inv_idle _, rfl⟩, ⟨inv_idle _, rfl⟩, inv_idle _, rfl⟩

theorem witness_NoEventNoStep : (idle []).events = [] := rfl

/-- Examples of 93_implementation_defined.md U9. -/
theorem witness_IllegalStateRefused :
    (at' { lengthDec 0#16 0#16 with fieldKind := .none }).legal = false ∧
      (at' { filling .data .a 0#16 3#16 with activeChannel := .all }).legal = false ∧
        (at' (filling .data .a 3#16 3#16)).legal = false ∧
          (at' { filling .data .a 0#16 3#16 with error := 0b010#3 }).legal = false ∧
            (playing 2#16).legal = false ∧ Instr.tick ≠ .reset := by decide

/-- Both clauses: an instruction at another position, and an ill-formed UNK. -/
theorem witness_OtherPositionsRefused :
    ((idle []).legal = true ∧ (Instr.pat (.data 0x00#8)).onStream = true ∧
        (Instr.pat (.data 0x00#8)).wellFormed = true ∧
          ((idle []).dec.messageKind, (idle []).dec.fieldKind) ≠ (Instr.pat (.data 0x00#8)).readAt) ∧
      (Instr.unk 0x01#8).onStream = true ∧ (Instr.unk 0x01#8).wellFormed = false := by decide

/-- A setter, a commit, a tick and a reset. -/
theorem witness_OnlyTheirWritersWriteRegisters :
    (∃ t, exec (.freq (.payload 0x00#8)) (at' (shortDec .frequency 1#16 0#16 0#16)) = .next t) ∧
      (∃ t, exec (.pat (.delimiter 0x55#8)) (at' (filling .delimiter .c 0#16 1#16)) = .next t) ∧
        (∃ t, exec .tick (playing 0#16) = .next t) ∧ ∃ t, exec .reset (playing 0#16) = .next t :=
  ⟨exists_next (by decide), exists_next (by decide), exists_next (by decide), exists_next (by decide)⟩

theorem witness_OtherInstructionsStoreNothing :
    (∃ t, exec (.pat (.delimiter 0x55#8)) (at' (filling .delimiter .c 0#16 1#16)) = .next t) ∧
      Instr.pat (.delimiter 0x55#8) ≠ .reset ∧ ∀ b, Instr.pat (.delimiter 0x55#8) ≠ .pat (.data b) :=
  ⟨exists_next (by decide), by decide, fun b h => by cases h⟩

theorem witness_LiveBankNeverWrittenByDecoder :
    (Instr.pat (.data 0x7F#8)).onStream = true ∧
      ∃ t, exec (.pat (.data 0x7F#8)) ((playing 0#16).withDec (filling .data .a 0#16 2#16)) = .next t :=
  ⟨rfl, exists_next (by decide)⟩

theorem witness_EndOfMessageLatchesAndResets :
    (∃ t, exec (.unk 0x07#8) (idle []) = .next t) ∧ Instr.unk 0x07#8 ≠ .reset :=
  ⟨exists_next (by decide), by decide⟩

/-- A message that ends with a `done` event, with the flags given. -/
def endsWith (i : Instr) (s : State) (d : DoneEvent) : Prop := ∃ t, exec i s = .next t ∧ t.done = some d

theorem endsWith_of {i : Instr} {s : State} {d : DoneEvent} (h : after i s State.done = some (some d)) :
    endsWith i s d := by
  unfold after at h
  obtain ⟨t, ht, hd⟩ := Option.map_eq_some_iff.1 h
  exact ⟨t, eq_next ht, hd⟩

/-- Each of the five flag values. -/
theorem witness_EndedMessageFlags :
    endsWith (.amp (.payload 0x00#8)) (at' (shortDec .amplitude 1#16 0#16 0#16)) { kind := .amplitude, flags := 0b000#3 } ∧
      endsWith (.unk 0x07#8) (idle []) { kind := .none, flags := 0b001#3 } ∧
        endsWith (.pat (.delimiter 0x55#8)) (at' (draining .delimiter .c 0#16 0#16))
            { kind := .pattern, flags := 0b010#3 } ∧
          endsWith (.pat (.delimiter 0x99#8)) (at' (filling .delimiter .a 0#16 2#16))
              { kind := .pattern, flags := 0b100#3 } ∧
            endsWith (.pat (.delimiter 0x01#8)) (at' (draining .delimiter .b 0#16 3#16))
              { kind := .pattern, flags := 0b110#3 } :=
  ⟨endsWith_of (by decide), endsWith_of (by decide), endsWith_of (by decide), endsWith_of (by decide),
    endsWith_of (by decide)⟩

theorem witness_RejectedMessageLeavesStore :
    endsWith (.pat (.delimiter 0x99#8)) (at' (filling .delimiter .a 0#16 2#16)) { kind := .pattern, flags := 0b100#3 } ∧
      0b100#3 ≠ 0b000#3 := ⟨endsWith_of (by decide), by decide⟩

theorem witness_ClaimIsAllOrNothing :
    (at' (filling .data .a 0#16 3#16)).legal = true ∧ (at' (draining .data .a 0#16 3#16)).legal = true := by decide

theorem witness_CommitPublishesShadowBank :
    (∃ t, exec (.pat (.delimiter 0x55#8)) ((playing 0#16).withDec (filling .delimiter .c 0#16 1#16)) = .next t) ∧
      ((playing 0#16).withDec (filling .delimiter .c 0#16 1#16)).dec.activeChannel = .one .c ∧
        ((playing 0#16).withDec (filling .delimiter .c 0#16 1#16)).dec.error = 0b000#3 ∧
          0 < ((playing 0#16).withDec (filling .delimiter .c 0#16 1#16)).dec.pendingLength.toNat :=
  ⟨exists_next (by decide), by decide, by decide, by decide⟩

/-- Two states with different stores; a step that reports and one that does not. -/
theorem witness_DecoderStateAndReportIndependentOfStore :
    (at' (filling .delimiter .c 0#16 1#16)).legal = true ∧
      ((playing 1#16).withDec (filling .delimiter .c 0#16 1#16)).legal = true ∧
        (∃ t, exec (.pat (.delimiter 0x55#8)) (at' (filling .delimiter .c 0#16 1#16)) = .next t ∧ t.done ≠ none) ∧
          ∃ t, exec (.pat (.data 0x00#8)) (at' (filling .data .b 0#16 1#16)) = .next t := by
  refine ⟨by decide, by decide, ?_, exists_next (by decide)⟩
  obtain ⟨t, ht, hd⟩ :=
    endsWith_of (i := .pat (.delimiter 0x55#8)) (s := at' (filling .delimiter .c 0#16 1#16))
      (d := { kind := .pattern, flags := 0b000#3 }) (by decide)
  exact ⟨t, ht, by simp [hd]⟩

/-- A step of each clause. -/
theorem witness_ReadViewChangesOnlyAtMessageEnd :
    (∃ t, exec (.pat (.data 0x00#8)) (at' (filling .data .b 0#16 1#16)) = .next t) ∧
      endsWith (.freq (.payload 0x00#8)) (at' (shortDec .frequency 1#16 0#16 0#16))
          { kind := .frequency, flags := 0b000#3 } ∧
        endsWith (.amp (.payload 0x00#8)) (at' (shortDec .amplitude 1#16 0#16 0#16))
            { kind := .amplitude, flags := 0b000#3 } ∧
          endsWith (.pat (.delimiter 0x55#8)) (at' (filling .delimiter .c 0#16 1#16))
            { kind := .pattern, flags := 0b000#3 } :=
  ⟨exists_next (by decide), endsWith_of (by decide), endsWith_of (by decide), endsWith_of (by decide)⟩

/-! #### Whole messages: `CAP = 8`, with ticks among the bytes -/

/-- The bytes, none denied, as events. -/
def bytesOf (bs : List Byte) : List Event := bs.map fun b => .byte b 0#3

theorem witness_FreqMessageSetsFrequency :
    StateInv (idle ([.byte 0x02#8 0#3, .tick, .byte 0x10#8 0#3, .byte 0x27#8 0#3] ++ [.tick])) ∧
      (idle []).dec.messageKind = .none ∧
        carries (.freq 0x2710#16) [.byte 0x02#8 0#3, .tick, .byte 0x10#8 0#3, .byte 0x27#8 0#3] :=
  ⟨inv_idle _, rfl, by decide, by decide, [.byte 0x02#8 0#3, .tick, .byte 0x10#8 0#3], 0x27#8, 0#3, rfl⟩

theorem witness_AmpMessageSetsAmplitude :
    StateInv (idle ([.tick, .byte 0x03#8 0#3, .byte 0x34#8 0#3, .byte 0x12#8 0#3] ++ [])) ∧
      (idle []).dec.messageKind = .none ∧
        carries (.amp 0x1234#16) [.tick, .byte 0x03#8 0#3, .byte 0x34#8 0#3, .byte 0x12#8 0#3] :=
  ⟨inv_idle _, rfl, by decide, by decide, [.tick, .byte 0x03#8 0#3, .byte 0x34#8 0#3], 0x12#8, 0#3, rfl⟩

/-- `PAT 1` with a tick before its last byte. -/
def accepted : List Event := bytesOf [0x01, 0x01, 0x00, 0xAA, 0x55, 0xBB, 0x55, 0xCC] ++ [.tick, .byte 0x55#8 0#3]

theorem witness_AcceptedPatternIsCommitted :
    StateInv (idle (accepted ++ [])) ∧ (idle []).dec.messageKind = .none ∧ carries (.pat [0xAA] [0xBB] [0xCC]) accepted ∧
      1 ≤ [0xAA#8].length ∧ [0xAA#8].length ≤ small.cap ∧ drawAt 2 accepted = some 0b000#3 :=
  ⟨inv_idle _, rfl, ⟨by decide, by decide, bytesOf [0x01, 0x01, 0x00, 0xAA, 0x55, 0xBB, 0x55, 0xCC] ++ [.tick], 0x55#8,
    0#3, rfl⟩, by decide, by decide, by decide⟩

/-- A length of `CAP`: the boundary of the claim. -/
theorem witness_AcceptedPatternIsCommitted_cap (d : Byte) :
    1 ≤ (List.replicate 8 d).length ∧ (List.replicate 8 d).length ≤ small.cap := by
  rw [List.length_replicate]
  decide

/-- The hypotheses of the rejection for events of bytes alone. -/
def rejectHypotheses (m : Message) (e : List Event) (deny : Bits3) : Prop :=
  StateInv (idle (e ++ [])) ∧ (idle []).dec.messageKind = .none ∧ m.wellFormed = true ∧ carries m e ∧
    drawAt 2 e = some deny

/-- Zero length with good delimiters. -/
theorem witness_RejectedPatternChangesNothing_zero :
    rejectHypotheses (.pat [] [] []) (bytesOf [0x01, 0x00, 0x00, 0x55, 0x55, 0x55]) 0#3 ∧
      claimRefused (State.resetOf small) 0 0#3 :=
  ⟨⟨inv_idle _, rfl, by decide, ⟨by decide, by decide, bytesOf [0x01, 0x00, 0x00, 0x55, 0x55], 0x55#8, 0#3, rfl⟩,
    by decide⟩, .inl rfl⟩

/-- A denied claim of one sample, with good delimiters. -/
theorem witness_RejectedPatternChangesNothing_denied :
    rejectHypotheses (.pat [0xAA] [0xBB] [0xCC])
        ([.byte 0x01#8 0#3, .byte 0x01#8 0#3, .byte 0x00#8 0b010#3] ++ bytesOf [0xAA, 0x55, 0xBB, 0x55, 0xCC, 0x55])
        0b010#3 ∧
      claimRefused (State.resetOf small) 1 0b010#3 :=
  ⟨⟨inv_idle _, rfl, by decide, ⟨by decide, by decide,
    [.byte 0x01#8 0#3, .byte 0x01#8 0#3, .byte 0x00#8 0b010#3] ++ bytesOf [0xAA, 0x55, 0xBB, 0x55, 0xCC], 0x55#8, 0#3,
    rfl⟩, by decide⟩, .inr (.inr (by decide))⟩

/-- A wrong first delimiter with the claim granted (95_test_vectors.md S2). -/
theorem witness_RejectedPatternChangesNothing_badA :
    rejectHypotheses (.patBadA [0x09, 0x09] 0x99#8) (bytesOf [0x01, 0x02, 0x00, 0x09, 0x09, 0x99]) 0#3 ∧
      ¬claimRefused (State.resetOf small) 2 0#3 :=
  ⟨⟨inv_idle _, rfl, by decide, ⟨by decide, by decide, bytesOf [0x01, 0x02, 0x00, 0x09, 0x09], 0x99#8, 0#3, rfl⟩,
    by decide⟩, by
      rintro (h | h | h)
      · exact absurd h (by decide)
      · exact absurd (show small.cap < 2 from h) (by decide)
      · exact h rfl⟩

/-- Zero length with a wrong second and a wrong third delimiter. -/
theorem witness_RejectedPatternChangesNothing_badB_badC :
    (rejectHypotheses (.patBadB [] [] 0x01#8) (bytesOf [0x01, 0x00, 0x00, 0x55, 0x01]) 0#3 ∧
        rejectHypotheses (.patBadC [] [] [] 0x00#8) (bytesOf [0x01, 0x00, 0x00, 0x55, 0x55, 0x00]) 0#3) ∧
      claimRefused (State.resetOf small) 0 0#3 :=
  ⟨⟨⟨inv_idle _, rfl, by decide, ⟨by decide, by decide, bytesOf [0x01, 0x00, 0x00, 0x55], 0x01#8, 0#3, rfl⟩, by decide⟩,
    ⟨inv_idle _, rfl, by decide, ⟨by decide, by decide, bytesOf [0x01, 0x00, 0x00, 0x55, 0x55], 0x00#8, 0#3, rfl⟩,
      by decide⟩⟩, .inl rfl⟩

theorem witness_ResendingAPatternIsIdempotent :
    StateInv (idle (accepted ++ (accepted ++ []))) ∧ (idle []).dec.messageKind = .none ∧
      carries (.pat [0xAA] [0xBB] [0xCC]) accepted ∧ 1 ≤ [0xAA#8].length ∧ [0xAA#8].length ≤ small.cap ∧
        drawAt 2 accepted = some 0b000#3 :=
  ⟨inv_idle _, witness_AcceptedPatternIsCommitted.2⟩

/-- A rejected byte and a tick: no pattern commits. -/
theorem witness_PlaybackUndisturbedUntilCommit :
    StateInv ((playing 1#16).withEvents ([.byte 0x07#8 0#3] ++ [.tick])) ∧ noReset [.byte 0x07#8 0#3] = true ∧
      ∀ k t, 1 ≤ k → k ≤ [Event.byte 0x07#8 0#3].length →
        run k ((playing 1#16).withEvents ([.byte 0x07#8 0#3] ++ [.tick])) = .next t →
          t.done ≠ some { kind := .pattern, flags := 0b000#3 } := by
  refine ⟨inv_playing _ (by decide) _, rfl, fun k t h1 h2 h => ?_⟩
  obtain rfl : k = 1 := by
    have : k ≤ 1 := h2
    omega
  have hd : (nextOf (run 1 ((playing 1#16).withEvents ([.byte 0x07#8 0#3] ++ [.tick])))).map State.done =
      some (some { kind := .none, flags := 0b001#3 }) := by decide
  rw [h] at hd
  simp only [nextOf, Option.map_some, Option.some.injEq] at hd
  rw [hd]
  decide

theorem witness_UnassignedBytesAreRejectedOneByOne :
    StateInv (idle ([0x00#8, 0x55#8, 0x04#8, 0xFF#8].map (fun t => Event.byte t 0#3) ++ [])) ∧
      (idle []).dec.messageKind = .none ∧
        (∀ t ∈ [0x00#8, 0x55#8, 0x04#8, 0xFF#8], t ≠ 0x01#8 ∧ t ≠ 0x02#8 ∧ t ≠ 0x03#8) ∧
          [0x00#8, 0x55#8, 0x04#8, 0xFF#8] ≠ [] := ⟨inv_idle _, rfl, by decide, by decide⟩

end Sys2Proof.Tests
end

section
/-! PROOFS. The statements of 10_state.md: the read view, the table of legal states, the writers of each register, the
shadow claim and the reset values. -/

namespace Sys2Proof.Machine

/-! ### The reset state (R21, R171) -/

theorem memRead_resetOf (p : Params) (ch : Channel) : memRead (State.resetOf p) 0#1 ch 0 = .ok 0x00#8 := by
  refine memRead_eq_ok.2 ⟨one_le_cap _, ?_⟩
  simp only [State.resetOf, lt_resetCount Nat.zero_lt_one]

/-- Settles O30: the registers are `State.resetOf`'s own fields, the samples are what reset writes. -/
theorem resetStateValues : Obligations.ResetStateValues :=
  ⟨rfl, rfl, fun p => ⟨rfl, rfl, rfl, rfl, rfl, memRead_resetOf p⟩⟩

/-! ### The read view (R27, R28) -/

@[simp] theorem channelSamples_length (s : State) (ch : Channel) :
    (channelSamples s ch).length = s.store.sampleCount.toNat := by
  simp [channelSamples]

theorem liveSample_ne_none {s : State} (h : StateInv s) {ch : Channel} {i : Nat}
    (hi : i < s.store.sampleCount.toNat) : liveSample s ch i ≠ none := by
  obtain ⟨v, hv⟩ := h.liveWritten ch i hi
  simp [liveSample_eq_some.2 hv]

theorem none_notMem_channelSamples {s : State} (h : StateInv s) (ch : Channel) : none ∉ channelSamples s ch := by
  intro hmem
  obtain ⟨i, hi, hnone⟩ := List.mem_map.1 hmem
  exact liveSample_ne_none h (List.mem_range.1 hi) hnone

/-- Settles O26: the bounds are R28 (a) and (b), and each buffer is the written live samples below `sample_count`. -/
theorem readViewIsWhole : Obligations.ReadViewIsWhole := by
  intro s h
  obtain ⟨hpos, hcap, hplay⟩ := h.store_bounds
  have whole (ch : Channel) :
      (channelSamples s ch).length = s.store.sampleCount.toNat ∧ none ∉ channelSamples s ch :=
    ⟨channelSamples_length s ch, none_notMem_channelSamples h ch⟩
  refine ⟨hpos, hcap, hplay, fun buffer hbuffer => ?_⟩
  rcases hbuffer with rfl | rfl | rfl
  · exact whole .a
  · exact whole .b
  · exact whole .c

/-! ### The shadow claim (R20, R131) -/

/-- Claims are for all three buffers or none (decision D6). -/
theorem Shape.claim_cases {cap : Nat} {d : DecoderState} (h : Shape cap d) :
    d.shadowClaimed = 0b111#3 ∨ d.shadowClaimed = 0b000#3 := by
  cases h with
  | dataFill | delimFill => exact .inl rfl
  | _ => exact .inr rfl

/-- The claim is held in the filling rows of R33 and in no other. -/
theorem Shape.claimed_iff {cap : Nat} {d : DecoderState} (h : Shape cap d) :
    d.shadowClaimed = 0b111#3 ↔
      d.messageKind = .pattern ∧ (d.fieldKind = .data ∨ d.fieldKind = .delimiter) ∧ d.error = 0b000#3 := by
  cases h with
  | dataFill => exact ⟨fun _ => ⟨rfl, .inl rfl, rfl⟩, fun _ => rfl⟩
  | delimFill => exact ⟨fun _ => ⟨rfl, .inr rfl, rfl⟩, fun _ => rfl⟩
  | dataDrain | delimDrain => simp [DecoderState.initial, Flag.allocationFailure]
  | _ => simp [DecoderState.initial]

/-- Settles O45, row by row of R33. -/
theorem claimIsAllOrNothing : Obligations.ClaimIsAllOrNothing := by
  intro s h
  have hs : Shape s.params.cap s.dec := (legal_iff.1 h).1
  exact ⟨hs.claim_cases, hs.claimed_iff⟩

/-! ### The table of legal states (R33)

`Shape` gives a row with `byte_index` 0 or 1, or with filling and drain, a constructor for each; the statement writes
such a row once. These lemmas read its rows as constructors. -/

theorem Shape.of_freqRow {cap : Nat} {i : Word} {lo : Byte} (h : i = 0#16 ∧ lo = 0#8 ∨ i = 1#16) :
    Shape cap
      { DecoderState.initial with
        messageKind := .frequency, byteIndex := i, pendingFrequency := joinBytes 0#8 lo } := by
  rcases h with ⟨rfl, rfl⟩ | rfl
  · exact .freq0
  · exact .freq1 lo

theorem Shape.of_ampRow {cap : Nat} {i : Word} {lo : Byte} (h : i = 0#16 ∧ lo = 0#8 ∨ i = 1#16) :
    Shape cap
      { DecoderState.initial with
        messageKind := .amplitude, byteIndex := i, pendingAmplitude := joinBytes 0#8 lo } := by
  rcases h with ⟨rfl, rfl⟩ | rfl
  · exact .amp0
  · exact .amp1 lo

theorem Shape.of_lengthRow {cap : Nat} {i : Word} {lo : Byte} (h : i = 0#16 ∧ lo = 0#8 ∨ i = 1#16) :
    Shape cap
      { DecoderState.initial with
        messageKind := .pattern, fieldKind := .length, byteIndex := i, pendingLength := joinBytes 0#8 lo } := by
  rcases h with ⟨rfl, rfl⟩ | rfl
  · exact .len0
  · exact .len1 lo

theorem Shape.of_channelRow {cap : Nat} {ch : Channel} {fk : FieldKind} {i n : Word} {err cl : Bits3}
    (hpos : fk = .data ∧ i.toNat < n.toNat ∨ fk = .delimiter ∧ i = 0#16)
    (hclaim : err = 0b000#3 ∧ cl = 0b111#3 ∧ 1 ≤ n.toNat ∧ n.toNat ≤ cap ∨ err = 0b010#3 ∧ cl = 0b000#3) :
    Shape cap
      { DecoderState.initial with
        messageKind := .pattern, fieldKind := fk, activeChannel := .one ch, byteIndex := i, pendingLength := n,
        error := err, shadowClaimed := cl } := by
  rcases hpos with ⟨rfl, hi⟩ | ⟨rfl, rfl⟩ <;> rcases hclaim with ⟨rfl, rfl, h1, hn⟩ | ⟨rfl, rfl⟩
  · exact .dataFill ch i n hi hn
  · exact .dataDrain ch i n hi
  · exact .delimFill ch n h1 hn
  · exact .delimDrain ch n

/-- Settles O36: the model's check is `Shape` with R28 (a), (b), and the rows of the statement are its constructors. -/
theorem legalStatesAreTheTable : Obligations.LegalStatesAreTheTable := by
  intro s
  rw [legal_iff, and_comm]
  refine and_congr_right fun _ => ⟨fun h => ?_, fun h => ?_⟩
  · generalize s.dec = d at h ⊢
    cases h with
    | idle => exact .inl rfl
    | freq0 => exact .inr (.inl ⟨0#8, 0#16, .inl ⟨rfl, rfl⟩, .inl rfl⟩)
    | freq1 lo => exact .inr (.inl ⟨lo, 1#16, .inr rfl, .inl rfl⟩)
    | amp0 => exact .inr (.inl ⟨0#8, 0#16, .inl ⟨rfl, rfl⟩, .inr (.inl rfl)⟩)
    | amp1 lo => exact .inr (.inl ⟨lo, 1#16, .inr rfl, .inr (.inl rfl)⟩)
    | len0 => exact .inr (.inl ⟨0#8, 0#16, .inl ⟨rfl, rfl⟩, .inr (.inr rfl)⟩)
    | len1 lo => exact .inr (.inl ⟨lo, 1#16, .inr rfl, .inr (.inr rfl)⟩)
    | dataFill ch i n hi hn =>
      exact .inr (.inr ⟨ch, .data, i, n, _, _, rfl, .inl ⟨rfl, hi⟩, .inl ⟨rfl, rfl, Nat.one_le_of_lt hi, hn⟩⟩)
    | dataDrain ch i n hi =>
      exact .inr (.inr ⟨ch, .data, i, n, _, _, rfl, .inl ⟨rfl, hi⟩, .inr ⟨rfl, rfl⟩⟩)
    | delimFill ch n h1 hn =>
      exact .inr (.inr ⟨ch, .delimiter, 0#16, n, _, _, rfl, .inr ⟨rfl, rfl⟩, .inl ⟨rfl, rfl, h1, hn⟩⟩)
    | delimDrain ch n =>
      exact .inr (.inr ⟨ch, .delimiter, 0#16, n, _, _, rfl, .inr ⟨rfl, rfl⟩, .inr ⟨rfl, rfl⟩⟩)
  · rcases h with hd | ⟨lo, i, hfield, hd | hd | hd⟩ | ⟨ch, fk, i, n, err, cl, hd, hpos, hclaim⟩ <;> rw [hd]
    · exact .idle
    · exact .of_freqRow hfield
    · exact .of_ampRow hfield
    · exact .of_lengthRow hfield
    · exact .of_channelRow hpos hclaim

/-! ### The writers of each register (R22 to R29, R127) -/

/-- An instruction that completes is a byte step, a tick that put out its samples, or a reset. -/
theorem exec_next_cases {i : Instr} {s t : State} (hx : exec i s = .next t) :
    ByteEffect s i t ∨
      (i = .tick ∧ ∃ o,
        t = ((clearOutputs s).withOut (some o)).withStore
          { s.store with playIndex := advance s.store.playIndex s.store.sampleCount }) ∨
        i = .reset ∧ t = resetStep s := by
  by_cases hi : i.onStream = true
  · exact .inl (exec_byteEffect hi hx)
  · rcases not_onStream hi with rfl | rfl
    · obtain ⟨_, o, _, ht⟩ := execTick_next.1 (show execTick s = .next t from hx)
      exact .inr (.inl ⟨rfl, o, ht⟩)
    · exact .inr (.inr ⟨rfl, execReset_next.1 hx⟩)

section ByteWriters

variable {s t : State} {i : Instr}

theorem ByteEffect.frequency_writer (h : ByteEffect s i t) :
    t.store.frequency = s.store.frequency ∨ ∃ b, i = .freq (.payload b) ∧ s.dec.byteIndex = 1#16 := by
  cases h with
  | frequencySet _ hi => exact .inr ⟨_, rfl, hi⟩
  | _ => exact .inl rfl

theorem ByteEffect.amplitude_writer (h : ByteEffect s i t) :
    t.store.amplitude = s.store.amplitude ∨ ∃ b, i = .amp (.payload b) ∧ s.dec.byteIndex = 1#16 := by
  cases h with
  | amplitudeSet _ hi => exact .inr ⟨_, rfl, hi⟩
  | _ => exact .inl rfl

/-- Only the commit writes the bank, the count and the index, and it writes all three (R121). -/
theorem ByteEffect.playback_writer (h : ByteEffect s i t) :
    (t.store.liveSel = s.store.liveSel ∧ t.store.sampleCount = s.store.sampleCount ∧
        t.store.playIndex = s.store.playIndex) ∨
      i = .pat (.delimiter Config.delim) ∧ s.dec.activeChannel = .one .c ∧ s.dec.error = Flag.none ∧
        t.store.sampleCount = s.dec.pendingLength ∧ t.store.playIndex = 0#16 := by
  cases h with
  | committed _ _ hch he => exact .inr ⟨rfl, hch, he, rfl, rfl⟩
  | _ => exact .inl ⟨rfl, rfl, rfl⟩

/-- `last_error` is the report of the message that ends, of the kind at the start of the step (R29, R30). -/
theorem ByteEffect.lastError_writer (h : ByteEffect s i t) :
    t.lastError = s.lastError ∨ ∃ e, t.done = some { kind := s.dec.messageKind, flags := e } ∧ t.lastError = e := by
  cases h with
  | moved | stored => exact .inl rfl
  | _ => exact .inr ⟨_, rfl, rfl⟩

end ByteWriters

/-- Settles O39: a byte step by its effect, a tick writes `play_index` alone, and RESET is excepted. -/
theorem onlyTheirWritersWriteRegisters : Obligations.OnlyTheirWritersWriteRegisters := by
  intro s t i hx
  obtain ⟨hevents, hparams⟩ := exec_frame hx
  rcases exec_next_cases hx with h | ⟨rfl, o, rfl⟩ | ⟨rfl, -⟩
  · refine ⟨h.frequency_writer.imp_right .inr, h.amplitude_writer.imp_right .inr, ?_, ?_,
      h.lastError_writer.imp_right .inr, hparams, hevents⟩ <;>
      rcases h.playback_writer with ⟨hlive, hcount, hplay⟩ | ⟨hi, hch, he, hcount, hplay⟩
    · exact .inl ⟨hlive, hcount⟩
    · exact .inr (.inr ⟨hi, hch, he, hcount⟩)
    · exact .inl hplay
    · exact .inr (.inr (.inr ⟨hi, hch, he, hplay⟩))
  · exact ⟨.inl rfl, .inl rfl, .inl ⟨rfl, rfl⟩, .inr (.inr (.inl rfl)), .inl rfl, hparams, hevents⟩
  · have reset {p q : Prop} : p ∨ Instr.reset = .reset ∨ q := .inr (.inl rfl)
    exact ⟨reset, reset, reset, reset, reset, hparams, hevents⟩

end Sys2Proof.Machine
end

section
/-! PROOFS. The statements of 20_memory.md: what a sample byte and every other instruction leave of the memory, and the
instruction that a step runs. -/

namespace Sys2Proof.Machine

/-! ### A sample byte (R41, R42, R106) -/

@[simp] theorem countByte_mem (s : State) : (countByte s).mem = s.mem := by
  unfold countByte
  split <;> rfl

theorem memWrite_eq_ok {s t : State} {k : Bank} {ch : Channel} {i : Nat} {v : Byte} :
    memWrite s k ch i v = .ok t ↔ i < s.params.cap ∧ t = s.withMem (s.mem.write (cellKey k ch i) v) := by
  by_cases hi : i < s.params.cap <;> simp [memWrite, hi, eq_comm]

/-- A data step that completes counts the byte, in drain alone and otherwise after storing it (R105, R106). -/
theorem dataStep_next {b : Byte} {s t : State} (h : dataStep b s = .next t) :
    (s.dec.error ≠ Flag.none ∧ t = countByte s) ∨
      (s.dec.error = Flag.none ∧ ∃ ch, s.dec.activeChannel = .one ch ∧ s.dec.byteIndex.toNat < s.params.cap ∧
        t = countByte (s.withMem (s.mem.write (cellKey (shadowBank s) ch s.dec.byteIndex.toNat) b))) := by
  unfold dataStep at h
  split at h
  case h_1 => cases h
  case h_2 ch hch =>
    by_cases herr : s.dec.error = Flag.none
    · rw [if_neg (by simp [inError, herr])] at h
      split at h
      case h_1 s₁ hs₁ =>
        obtain ⟨hi, rfl⟩ := memWrite_eq_ok.1 hs₁
        cases h
        exact .inr ⟨herr, ch, hch, hi, rfl⟩
      case h_2 => cases h
    · rw [if_pos (by simp [inError, herr])] at h
      cases h
      exact .inl ⟨herr, rfl⟩

theorem dataStep_of_exec_next {b : Byte} {s t : State} (hx : exec (.pat (.data b)) s = .next t) :
    dataStep b (clearOutputs s) = .next t := by
  have hl : s.legal = true := legal_of_exec_next (by simp) hx
  rw [exec, execPat, whenLegal_of_legal hl] at hx
  exact (atField_next.1 hx).2

/-- Settles O17: in drain the memory is the same, and otherwise it is the memory after one write to the shadow bank. -/
theorem dataByteMemoryFrame : Obligations.DataByteMemoryFrame := by
  intro s t b hx k ch i
  have hp : t.params = s.params := (exec_frame hx).2
  rcases dataStep_next (dataStep_of_exec_next hx) with ⟨herr, rfl⟩ | ⟨herr, ch', hch, hi, rfl⟩
  · rw [if_neg fun h => herr h.1]
    exact memRead_congr (countByte_mem _) hp k ch i
  · rw [memRead_write (s := s) hi (countByte_mem _) hp]
    have haddress : (k = shadowBank s ∧ ch = ch' ∧ i = s.dec.byteIndex.toNat) ↔
        s.dec.error = 0b000#3 ∧ k = 1#1 - s.store.liveSel ∧ s.dec.activeChannel = .one ch ∧
          i = s.dec.byteIndex.toNat := by
      rw [clearOutputs_dec] at herr hch
      simp [herr, hch, Flag.none, shadowBank, eq_comm (a := ch)]
    exact if_congr haddress rfl rfl

/-! ### Every other instruction (R41, R44) -/

/-- Only a sample byte is stored; every other byte step leaves the memory alone. -/
theorem ByteEffect.mem_writer {s t : State} {i : Instr} (h : ByteEffect s i t) :
    t.mem = s.mem ∨ ∃ b, i = .pat (.data b) := by
  cases h with
  | stored => exact .inr ⟨_, rfl⟩
  | _ => exact .inl rfl

theorem exec_mem_of_ne {s t : State} {i : Instr} (hx : exec i s = .next t) (hreset : i ≠ .reset)
    (hdata : ∀ b, i ≠ .pat (.data b)) : t.mem = s.mem := by
  rcases exec_next_cases hx with h | ⟨rfl, o, rfl⟩ | ⟨rfl, -⟩
  · exact h.mem_writer.resolve_right fun ⟨b, hb⟩ => hdata b hb
  · rfl
  · exact absurd rfl hreset

/-- Settles O40: the memory and `CAP` stay, and a read depends on nothing else. -/
theorem otherInstructionsStoreNothing : Obligations.OtherInstructionsStoreNothing :=
  fun _ _ _ hx hreset hdata => memRead_congr (exec_mem_of_ne hx hreset hdata) (exec_frame hx).2

/-! ### One event, one instruction (R14, R50 to R52) -/

theorem fetchEvent_byte {s : State} {b : Byte} {deny : Bits3} {i : Instr} {r : List Byte}
    (hd : decode s.dec.messageKind s.dec.fieldKind deny [b] = .ok (i, r)) :
    fetchEvent s (.byte b deny) = .ok i := by
  simp [fetchEvent, hd, Except.map]

/-- Settles O32: a step runs what its event is fetched as, a byte by the decoder and a tick as `TICK`. -/
theorem stepRunsDecodedInstruction : Obligations.StepRunsDecodedInstruction :=
  fun _ _ => ⟨fun _ _ _ he hd => step_cons he (fetchEvent_byte hd), fun he => step_cons he rfl⟩

end Sys2Proof.Machine
end

section
/-! PROOFS. The statements of 30_encoding.md: the type-byte map, the layout of the messages, and that the parser and the
encoder of whole messages undo each other. -/

namespace Sys2Proof

/-! ### The type byte (R62, R74) -/

theorem isUnassignedType_iff {t : Byte} : isUnassignedType t = true ↔ t ≠ 0x01#8 ∧ t ≠ 0x02#8 ∧ t ≠ 0x03#8 := by
  simp [isUnassignedType, Config.typePattern, Config.typeFrequency, Config.typeAmplitude, and_assoc]

/-- In Idle the first byte is read as a type byte, whatever the field kind and the draw (R85). -/
theorem decode_idle (fk : FieldKind) (deny : Bits3) (t : Byte) (rest : List Byte) :
    decode .none fk deny (t :: rest) = (decodeType t).map fun i => (i, rest) := rfl

/-- Settles O1: the three assigned type bytes one by one, then the unassigned ones. -/
theorem typeByteSelectsMessage : Obligations.TypeByteSelectsMessage := by
  intro fk deny t rest
  rw [decode_idle]
  rcases type_cases t with rfl | rfl | rfl | h
  · rw [decodeType_pattern]; rfl
  · rw [decodeType_frequency]; rfl
  · rw [decodeType_amplitude]; rfl
  · obtain ⟨hpat, hfreq, hamp⟩ := isUnassignedType_iff.1 h
    rw [decodeType_unassigned h, if_neg hpat, if_neg hfreq, if_neg hamp]
    rfl

/-- Settles O2: the rows a byte selects are counted for each of the 256 bytes. -/
theorem opcodeRowsPartitionTypeBytes : Obligations.OpcodeRowsPartitionTypeBytes := by
  have one_row : ∀ t : Byte, (opcodeTable.filter fun r => r.selects t).length = 1 := by decide
  exact fun t => List.length_eq_one_iff.1 (one_row t)

/-! ### The layout of a message (R63, R64, R69) -/

@[simp] theorem encodePatHead_length (n : Nat) : (encodePatHead n).length = 3 := rfl

/-- Settles O5: the encoder's own equations. -/
theorem shortMessageLayout : Obligations.ShortMessageLayout := fun _ => ⟨rfl, rfl⟩

/-- Settles O6: the length bytes are those of the length as a 16-bit field, and the rest is the encoder's layout. -/
theorem patternMessageLayout : Obligations.PatternMessageLayout := by
  intro a b c d hlen hb hc
  refine ⟨⟨_, _, ofNat_bytes hlen, ?_⟩, ?_⟩
  · simp [encodeMessage, encodePatHead, encodeField, Config.typePattern, Config.delim]
  · simp only [encodeMessage, List.length_append, List.length_cons, List.length_nil, encodePatHead_length, hb, hc]
    omega

/-! ### The fields of a message -/

/-- The first two bytes are taken exactly when they are the field's encoding (R47, R67). -/
theorem takeField_eq_some {bytes rest : List Byte} {v : Word} :
    takeField bytes = some (v, rest) ↔ bytes = encodeField v ++ rest := by
  constructor
  · intro h
    unfold takeField at h
    split at h
    case h_1 lo hi r =>
      cases h
      simp [encodeField]
    case h_2 => cases h
  · rintro rfl
    simp [takeField, encodeField]

@[simp] theorem takeField_encodeField (v : Word) (rest : List Byte) :
    takeField (encodeField v ++ rest) = some (v, rest) := takeField_eq_some.2 rfl

/-! ### The body of a pattern message (R64, R69) -/

/-- The pattern message and its bytes after a length `n`: one constructor per place where the message ends. -/
inductive PatternBody (n : Nat) : Message → List Byte → Prop
  | badA {a : List Byte} {d : Byte} (ha : a.length = n) (hd : d ≠ Config.delim) :
    PatternBody n (.patBadA a d) (a ++ [d])
  | badB {a b : List Byte} {d : Byte} (ha : a.length = n) (hb : b.length = n) (hd : d ≠ Config.delim) :
    PatternBody n (.patBadB a b d) (a ++ Config.delim :: (b ++ [d]))
  | badC {a b c : List Byte} {d : Byte} (ha : a.length = n) (hb : b.length = n) (hc : c.length = n)
      (hd : d ≠ Config.delim) :
    PatternBody n (.patBadC a b c d) (a ++ Config.delim :: (b ++ Config.delim :: (c ++ [d])))
  | good {a b c : List Byte} (ha : a.length = n) (hb : b.length = n) (hc : c.length = n) :
    PatternBody n (.pat a b c) (a ++ Config.delim :: (b ++ Config.delim :: (c ++ [Config.delim])))

section

variable {n : Nat} {m : Message} {body rest bytes : List Byte}

theorem PatternBody.encodeMessage_eq (h : PatternBody n m body) : encodeMessage m = encodePatHead n ++ body := by
  cases h <;> subst n <;> simp only [encodeMessage, List.append_assoc]

theorem PatternBody.wellFormed (h : PatternBody n m body) (hn : n < 65536) : m.wellFormed = true := by
  cases h <;> simp [Message.wellFormed, fitsLength, *]

theorem PatternBody.parseBody_eq (h : PatternBody n m body) (rest : List Byte) :
    parseBody n (body ++ rest) = some (m, rest) := by
  cases h <;> simp [parseBody, takeBlock_append, *]

theorem PatternBody.of_parseBody (h : parseBody n bytes = some (m, rest)) :
    ∃ body, PatternBody n m body ∧ bytes = body ++ rest := by
  unfold parseBody at h
  split at h
  case h_1 => cases h
  case h_2 a d₁ r₁ hA =>
    obtain ⟨ha, rfl⟩ := takeBlock_some hA
    split at h
    case isTrue hd =>
      cases h
      exact ⟨_, .badA ha hd, by simp⟩
    case isFalse hd₁ =>
      obtain rfl := not_not.1 hd₁
      split at h
      case h_1 => cases h
      case h_2 b d₂ r₂ hB =>
        obtain ⟨hb, rfl⟩ := takeBlock_some hB
        split at h
        case isTrue hd =>
          cases h
          exact ⟨_, .badB ha hb hd, by simp⟩
        case isFalse hd₂ =>
          obtain rfl := not_not.1 hd₂
          split at h
          case h_1 => cases h
          case h_2 c d₃ r₃ hC =>
            obtain ⟨hc, rfl⟩ := takeBlock_some hC
            split at h
            case isTrue hd =>
              cases h
              exact ⟨_, .badC ha hb hc hd, by simp⟩
            case isFalse hd₃ =>
              obtain rfl := not_not.1 hd₃
              cases h
              exact ⟨_, .good ha hb hc, by simp⟩

end

/-! ### Whole messages (R60, R69, R72) -/

theorem parseMessage_frequency (bytes : List Byte) :
    parseMessage (Config.typeFrequency :: bytes) = (takeField bytes).map fun vr => (.freq vr.1, vr.2) := by
  simp [parseMessage]

theorem parseMessage_amplitude (bytes : List Byte) :
    parseMessage (Config.typeAmplitude :: bytes) = (takeField bytes).map fun vr => (.amp vr.1, vr.2) := by
  simp [parseMessage]

theorem parseMessage_pattern (bytes : List Byte) :
    parseMessage (Config.typePattern :: bytes) = (takeField bytes).bind fun nr => parseBody nr.1.toNat nr.2 := by
  simp [parseMessage]

theorem parseMessage_unassigned {t : Byte} (h : isUnassignedType t = true) (bytes : List Byte) :
    parseMessage (t :: bytes) = some (.unk t, bytes) := by
  simp [parseMessage, lookupType_unassigned h]

/-- A length that fits the field is read back, and the body after it is parsed with that length. -/
theorem parseMessage_encodePatHead {n : Nat} (hn : n < 65536) (bytes : List Byte) :
    parseMessage (encodePatHead n ++ bytes) = parseBody n bytes := by
  rw [encodePatHead, List.cons_append, parseMessage_pattern, takeField_encodeField, Option.bind_some,
    BitVec.toNat_ofNat, Nat.mod_eq_of_lt hn]

theorem PatternBody.parseMessage_eq {n : Nat} {m : Message} {body : List Byte} (h : PatternBody n m body)
    (hn : n < 65536) (rest : List Byte) : parseMessage (encodeMessage m ++ rest) = some (m, rest) := by
  rw [h.encodeMessage_eq, List.append_assoc, parseMessage_encodePatHead hn, h.parseBody_eq]

/-- Settles O7, by the form of the message: a short message is its type byte and a field, a pattern message its length
and a `PatternBody`. -/
theorem parseUndoesEncodeMessage : Obligations.ParseUndoesEncodeMessage := by
  intro m rest hwf
  cases m with
  | freq v => rw [encodeMessage, List.cons_append, parseMessage_frequency, takeField_encodeField, Option.map_some]
  | amp v => rw [encodeMessage, List.cons_append, parseMessage_amplitude, takeField_encodeField, Option.map_some]
  | unk t => exact parseMessage_unassigned hwf rest
  | pat a b c =>
    simp only [Message.wellFormed, fitsLength, Bool.and_eq_true, decide_eq_true_eq, beq_iff_eq] at hwf
    obtain ⟨⟨hn, hb⟩, hc⟩ := hwf
    exact (PatternBody.good rfl hb hc).parseMessage_eq hn rest
  | patBadA a d =>
    simp only [Message.wellFormed, fitsLength, Bool.and_eq_true, decide_eq_true_eq, bne_iff_ne] at hwf
    obtain ⟨hn, hd⟩ := hwf
    exact (PatternBody.badA rfl hd).parseMessage_eq hn rest
  | patBadB a b d =>
    simp only [Message.wellFormed, fitsLength, Bool.and_eq_true, decide_eq_true_eq, beq_iff_eq, bne_iff_ne] at hwf
    obtain ⟨⟨hn, hb⟩, hd⟩ := hwf
    exact (PatternBody.badB rfl hb hd).parseMessage_eq hn rest
  | patBadC a b c d =>
    simp only [Message.wellFormed, fitsLength, Bool.and_eq_true, decide_eq_true_eq, beq_iff_eq, bne_iff_ne] at hwf
    obtain ⟨⟨⟨hn, hb⟩, hc⟩, hd⟩ := hwf
    exact (PatternBody.badC rfl hb hc hd).parseMessage_eq hn rest

/-- Settles O8, by the type byte: each parser that it selects takes exactly the bytes that the encoder writes. -/
theorem parsedMessageIsItsBytes : Obligations.ParsedMessageIsItsBytes := by
  intro bytes m rest h
  cases bytes with
  | nil => cases h
  | cons t bytes =>
    rcases type_cases t with rfl | rfl | rfl | ht
    · rw [parseMessage_pattern, Option.bind_eq_some_iff] at h
      obtain ⟨⟨n, r⟩, hfield, hbody⟩ := h
      obtain ⟨body, hm, rfl⟩ := PatternBody.of_parseBody hbody
      refine ⟨hm.wellFormed n.isLt, ?_⟩
      rw [hm.encodeMessage_eq, takeField_eq_some.1 hfield, encodePatHead, BitVec.ofNat_toNat, BitVec.setWidth_eq,
        List.cons_append, List.cons_append, List.append_assoc]
    · rw [parseMessage_frequency, Option.map_eq_some_iff] at h
      obtain ⟨⟨v, r⟩, hfield, hm⟩ := h
      cases hm
      exact ⟨rfl, congrArg _ (takeField_eq_some.1 hfield).symm⟩
    · rw [parseMessage_amplitude, Option.map_eq_some_iff] at h
      obtain ⟨⟨v, r⟩, hfield, hm⟩ := h
      cases hm
      exact ⟨rfl, congrArg _ (takeField_eq_some.1 hfield).symm⟩
    · rw [parseMessage_unassigned ht] at h
      cases h
      exact ⟨ht, rfl⟩

end Sys2Proof
end

section
/-! PROOFS. The statements of 40_byte_splicer.md: `replace_byte` in its two forms, and the five laws of the splicer. -/

namespace Sys2Proof.Machine

/-! ### Bitwise operations on a field, byte by byte -/

theorem joinBytes_and (hi₁ lo₁ hi₂ lo₂ : Byte) :
    joinBytes hi₁ lo₁ &&& joinBytes hi₂ lo₂ = joinBytes (hi₁ &&& hi₂) (lo₁ &&& lo₂) := BitVec.and_append

theorem joinBytes_or (hi₁ lo₁ hi₂ lo₂ : Byte) :
    joinBytes hi₁ lo₁ ||| joinBytes hi₂ lo₂ = joinBytes (hi₁ ||| hi₂) (lo₁ ||| lo₂) := BitVec.or_append

theorem and_highMask (v : Word) : v &&& 0xFF00#16 = joinBytes (hiByte v) 0#8 := by
  have mask : 0xFF00#16 = joinBytes (BitVec.allOnes 8) 0#8 := by decide
  conv_lhs => rw [← joinBytes_hiByte_loByte v, mask]
  rw [joinBytes_and, BitVec.and_allOnes, BitVec.and_zero]

theorem and_lowMask (v : Word) : v &&& 0x00FF#16 = joinBytes 0#8 (loByte v) := by
  have mask : 0x00FF#16 = joinBytes 0#8 (BitVec.allOnes 8) := by decide
  conv_lhs => rw [← joinBytes_hiByte_loByte v, mask]
  rw [joinBytes_and, BitVec.and_allOnes, BitVec.and_zero]

theorem setWidth_eq_joinBytes (b : Byte) : b.setWidth 16 = joinBytes 0#8 b :=
  BitVec.setWidth_eq_append (by decide)

theorem setWidth_mul_256_eq_joinBytes (b : Byte) : b.setWidth 16 * 256#16 = joinBytes b 0#8 := by
  apply BitVec.eq_of_toNat_eq
  rw [setWidth_eq_joinBytes, BitVec.toNat_mul, joinBytes_toNat, joinBytes_toNat, BitVec.toNat_ofNat,
    BitVec.toNat_ofNat]
  omega

/-! ### The splicer (R80) -/

@[simp] theorem replaceByte_lo (v : Word) (b : Byte) : replaceByte v b .lo = joinBytes (hiByte v) b := rfl

@[simp] theorem replaceByte_hi (v : Word) (b : Byte) : replaceByte v b .hi = joinBytes b (loByte v) := rfl

theorem replaceByte_lo_eq_mask_or (v : Word) (b : Byte) :
    replaceByte v b .lo = v &&& 0xFF00#16 ||| b.setWidth 16 := by
  rw [replaceByte_lo, and_highMask, setWidth_eq_joinBytes, joinBytes_or, BitVec.or_zero, BitVec.zero_or]

theorem replaceByte_hi_eq_mask_or (v : Word) (b : Byte) :
    replaceByte v b .hi = v &&& 0x00FF#16 ||| b.setWidth 16 * 256#16 := by
  rw [replaceByte_hi, and_lowMask, setWidth_mul_256_eq_joinBytes, joinBytes_or, BitVec.or_zero, BitVec.zero_or]

/-- Settles O9: the concatenations are the definition's own, the integers are a mask and a union byte by byte. -/
theorem replaceByteContract : Obligations.ReplaceByteContract :=
  fun v b => ⟨rfl, rfl, replaceByte_lo_eq_mask_or v b, replaceByte_hi_eq_mask_or v b⟩

/-! ### The laws of the splicer (R82) -/

/-- The second of two splices at one position wins. -/
theorem replaceByte_replaceByte_same (v : Word) (x y : Byte) (i : SpliceIndex) :
    replaceByte (replaceByte v x i) y i = replaceByte v y i := by
  cases i with
  | lo => rw [replaceByte_lo, replaceByte_lo, hiByte_joinBytes, replaceByte_lo]
  | hi => rw [replaceByte_hi, replaceByte_hi, loByte_joinBytes, replaceByte_hi]

/-- Two splices at both positions leave nothing of the start value (R67). -/
theorem replaceByte_lo_hi (v : Word) (x y : Byte) : replaceByte (replaceByte v x .lo) y .hi = joinBytes y x := by
  rw [replaceByte_hi, replaceByte_lo, loByte_joinBytes]

theorem replaceByte_hi_lo (v : Word) (x y : Byte) : replaceByte (replaceByte v y .hi) x .lo = joinBytes y x := by
  rw [replaceByte_lo, replaceByte_hi, hiByte_joinBytes]

/-- Settles O10: each law is read off the two bytes that a splice joins. -/
theorem splicerLaws : Obligations.SplicerLaws := by
  intro v x y
  refine ⟨⟨?_, ?_⟩, ⟨?_, ?_⟩, ⟨replaceByte_lo_hi v x y, replaceByte_hi_lo v x y, joinBytes_toNat y x⟩,
    replaceByte_replaceByte_same v x y, joinBytes_hiByte_loByte v, joinBytes_hiByte_loByte v⟩
  · exact loByte_joinBytes (hiByte v) x
  · exact hiByte_joinBytes (hiByte v) x
  · exact hiByte_joinBytes x (loByte v)
  · exact loByte_joinBytes x (loByte v)

end Sys2Proof.Machine
end

section
/-! PROOFS. The statements of 41_decoder_idle_short.md: the bytes read in Idle and in a short message, whole short
messages with ticks among their bytes, and that every event is taken. -/

namespace Sys2Proof.Machine

/-! ### Every event is taken (R85, R139, R187) -/

theorem event_completes {s : State} (h : StateInv s) (e : Event) :
    ∃ i t, fetchEvent s e = .ok i ∧ exec i s = .next t := by
  cases e with
  | byte b deny =>
    obtain ⟨i, t, hd, -, hx⟩ := byte_completes h.legal b deny
    exact ⟨i, t, fetchEvent_byte hd, hx⟩
  | tick =>
    obtain ⟨o, ho⟩ := exec_tick_completes h
    exact ⟨.tick, _, rfl, execTick_next.2 ⟨h.legal, o, ho, rfl⟩⟩
  | reset => exact ⟨.reset, _, rfl, rfl⟩

/-- Settles O34: the event's instruction completes with the event consumed, and no instruction touches the events left
or the parameters. -/
theorem stepAlwaysCompletes : Obligations.StepAlwaysCompletes := by
  intro s e rest h he
  obtain ⟨i, t, hi, hx⟩ := event_completes (inv_of_withEvents (e := rest).2 h) e
  obtain ⟨hevents, hparams⟩ := exec_frame hx
  exact ⟨t, (step_cons he hi).trans hx, hevents, hparams⟩

/-! ### In Idle (R86 to R89) -/

theorem enterMessage_of_idle {s : State} (hk : s.dec.messageKind = .none) (mk : MessageKind) (fk : FieldKind) :
    enterMessage mk fk (clearOutputs s) = .next (setPos mk fk .all 0#16 (clearOutputs s)) := by
  simp [enterMessage, hk]

section Idle

variable {s : State} (hl : s.legal = true) (hk : s.dec.messageKind = .none)
include hl hk

theorem exec_pat_typeByte :
    exec (.pat .typeByte) s = .next (setPos .pattern .length .all 0#16 (clearOutputs s)) := by
  rw [exec, execPat, whenLegal_of_legal hl]
  exact enterMessage_of_idle hk .pattern .length

theorem exec_freq_typeByte :
    exec (.freq .typeByte) s = .next (setPos .frequency .none .all 0#16 (clearOutputs s)) := by
  rw [exec, execFreq, whenLegal_of_legal hl]
  exact enterMessage_of_idle hk .frequency .none

theorem exec_amp_typeByte :
    exec (.amp .typeByte) s = .next (setPos .amplitude .none .all 0#16 (clearOutputs s)) := by
  rw [exec, execAmp, whenLegal_of_legal hl]
  exact enterMessage_of_idle hk .amplitude .none

theorem exec_unk {t : Byte} (ht : isUnassignedType t = true) :
    exec (.unk t) s = .next (ended s Flag.unknownType s.store) := by
  rw [exec, execUnk, whenLegal_of_legal hl, unknownStep, if_pos ht]
  simp only [clearOutputs_dec, rejectMessage_clearOutputs, dec_of_idle hl hk]
  rfl

end Idle

/-- Settles O11: the three type bytes enter their messages. -/
theorem typeByteStartsMessage : Obligations.TypeByteStartsMessage :=
  fun _ hl hk => ⟨exec_pat_typeByte hl hk, exec_freq_typeByte hl hk, exec_amp_typeByte hl hk⟩

/-- Settles O12: the rejected message is of kind `None`, as the decoder is in Idle. -/
theorem unassignedTypeByteRejected : Obligations.UnassignedTypeByteRejected := by
  intro s t hl hk h1 h2 h3
  rw [exec_unk hl hk (isUnassignedType_iff.2 ⟨h1, h2, h3⟩), ended, hk]
  rfl

/-! ### In a short message (R90, R91) -/

/-- `FREQ` before its first payload byte. -/
def freqHead : DecoderState := { DecoderState.initial with messageKind := .frequency }

/-- `FREQ` before its second payload byte. -/
def freqHalf (lo : Byte) : DecoderState := { freqHead with byteIndex := 1#16, pendingFrequency := joinBytes 0#8 lo }

/-- `AMP` before its first payload byte. -/
def ampHead : DecoderState := { DecoderState.initial with messageKind := .amplitude }

/-- `AMP` before its second payload byte. -/
def ampHalf (lo : Byte) : DecoderState := { ampHead with byteIndex := 1#16, pendingAmplitude := joinBytes 0#8 lo }

theorem Shape.freq_cases {cap : Nat} {d : DecoderState} (h : Shape cap d) (hk : d.messageKind = .frequency) :
    d = freqHead ∨ ∃ lo, d = freqHalf lo := by
  cases h with
  | freq0 => exact .inl rfl
  | freq1 lo => exact .inr ⟨lo, rfl⟩
  | _ => cases hk

theorem Shape.amp_cases {cap : Nat} {d : DecoderState} (h : Shape cap d) (hk : d.messageKind = .amplitude) :
    d = ampHead ∨ ∃ lo, d = ampHalf lo := by
  cases h with
  | amp0 => exact .inl rfl
  | amp1 lo => exact .inr ⟨lo, rfl⟩
  | _ => cases hk

/-- The state after a byte that changes the Decoder State alone. -/
def moveTo (d : DecoderState) (s : State) : State := (clearOutputs s).withDec d

theorem endMessage_eq_ended {s : State} {d : DecoderState} (hk : d.messageKind = s.dec.messageKind) (p : PatternStore) :
    endMessage (((clearOutputs s).withDec d).withStore p) = ended s d.error p := by
  rw [ended, ← hk]
  rfl

section Payload

variable {s : State} (hl : s.legal = true) (b : Byte)
include hl

theorem exec_freq_payload_head (hd : s.dec = freqHead) :
    exec (.freq (.payload b)) s = .next (moveTo (freqHalf b) s) := by
  rw [exec, execFreq, whenLegal_of_legal hl]
  simp [frequencyStep, hd, freqHead, DecoderState.initial, spliceIndex, moveTo, freqHalf]

theorem exec_freq_payload_half {lo : Byte} (hd : s.dec = freqHalf lo) :
    exec (.freq (.payload b)) s = .next (ended s Flag.none { s.store with frequency := joinBytes b lo }) := by
  rw [exec, execFreq, whenLegal_of_legal hl]
  simp [frequencyStep, hd, freqHalf, freqHead, DecoderState.initial, spliceIndex, setFrequency, endMessage_eq_ended,
    Flag.none]

theorem exec_amp_payload_head (hd : s.dec = ampHead) :
    exec (.amp (.payload b)) s = .next (moveTo (ampHalf b) s) := by
  rw [exec, execAmp, whenLegal_of_legal hl]
  simp [amplitudeStep, hd, ampHead, DecoderState.initial, spliceIndex, moveTo, ampHalf]

theorem exec_amp_payload_half {lo : Byte} (hd : s.dec = ampHalf lo) :
    exec (.amp (.payload b)) s = .next (ended s Flag.none { s.store with amplitude := joinBytes b lo }) := by
  rw [exec, execAmp, whenLegal_of_legal hl]
  simp [amplitudeStep, hd, ampHalf, ampHead, DecoderState.initial, spliceIndex, setAmplitude, endMessage_eq_ended,
    Flag.none]

end Payload

/-- Settles O13: R33 leaves two positions within `FREQ`, one for each payload byte. -/
theorem freqPayloadStep : Obligations.FreqPayloadStep := by
  intro s b hl hk
  rcases (legal_iff.1 hl).1.freq_cases hk with hd | ⟨lo, hd⟩
  · refine ⟨fun _ => ?_, fun hi => absurd hi (by simp [hd, freqHead, DecoderState.initial])⟩
    rw [exec_freq_payload_head hl b hd, hd]
    rfl
  · refine ⟨fun hi => absurd hi (by simp [hd, freqHalf]), fun _ => ?_⟩
    have hlo : loByte s.dec.pendingFrequency = lo := by simp [hd, freqHalf]
    rw [exec_freq_payload_half hl b hd, hlo, ended, hd]
    rfl

/-- Settles O14: R33 leaves two positions within `AMP`, one for each payload byte. -/
theorem ampPayloadStep : Obligations.AmpPayloadStep := by
  intro s b hl hk
  rcases (legal_iff.1 hl).1.amp_cases hk with hd | ⟨lo, hd⟩
  · refine ⟨fun _ => ?_, fun hi => absurd hi (by simp [hd, ampHead, DecoderState.initial])⟩
    rw [exec_amp_payload_head hl b hd, hd]
    rfl
  · refine ⟨fun hi => absurd hi (by simp [hd, ampHalf]), fun _ => ?_⟩
    have hlo : loByte s.dec.pendingAmplitude = lo := by simp [hd, ampHalf]
    rw [exec_amp_payload_half hl b hd, hlo, ended, hd]
    rfl

/-! ### The step that takes a byte -/

/-- In the Decoder State `d` the step that takes the byte `b` does `f`, whatever the draw. -/
def Takes (d : DecoderState) (b : Byte) (f : State → State) : Prop :=
  ∀ s deny r, s.legal = true → s.dec = d → s.events = .byte b deny :: r → step s = .next (f (s.withEvents r))

theorem takes_of_exec {d : DecoderState} {b : Byte} {f : State → State} {i : Instr}
    (hdec : ∀ deny, decode d.messageKind d.fieldKind deny [b] = .ok (i, []))
    (hx : ∀ s : State, s.legal = true → s.dec = d → exec i s = .next (f s)) : Takes d b f := by
  intro s deny r hl hd he
  exact step_byte he (hd ▸ hdec deny) (hx (s.withEvents r) hl hd)

theorem takes_typeFrequency : Takes DecoderState.initial Config.typeFrequency (moveTo freqHead) := by
  refine takes_of_exec (i := .freq .typeByte) (fun _ => rfl) fun s hl hd => ?_
  rw [exec_freq_typeByte hl (by rw [hd]; rfl), setPos, clearOutputs_dec, hd]
  rfl

theorem takes_typeAmplitude : Takes DecoderState.initial Config.typeAmplitude (moveTo ampHead) := by
  refine takes_of_exec (i := .amp .typeByte) (fun _ => rfl) fun s hl hd => ?_
  rw [exec_amp_typeByte hl (by rw [hd]; rfl), setPos, clearOutputs_dec, hd]
  rfl

theorem takes_unassigned {t : Byte} (ht : isUnassignedType t = true) :
    Takes DecoderState.initial t fun s => ended s Flag.unknownType s.store := by
  refine takes_of_exec (i := .unk t) (fun deny => ?_) fun s hl hd => exec_unk hl (by rw [hd]; rfl) ht
  rw [show DecoderState.initial.messageKind = .none from rfl, decode_idle, decodeType_unassigned ht]
  rfl

theorem takes_freqHead (lo : Byte) : Takes freqHead lo (moveTo (freqHalf lo)) :=
  takes_of_exec (fun _ => rfl) fun _ hl hd => exec_freq_payload_head hl lo hd

theorem takes_freqHalf (hi lo : Byte) :
    Takes (freqHalf lo) hi fun s => ended s Flag.none { s.store with frequency := joinBytes hi lo } :=
  takes_of_exec (fun _ => rfl) fun _ hl hd => exec_freq_payload_half hl hi hd

theorem takes_ampHead (lo : Byte) : Takes ampHead lo (moveTo (ampHalf lo)) :=
  takes_of_exec (fun _ => rfl) fun _ hl hd => exec_amp_payload_head hl lo hd

theorem takes_ampHalf (hi lo : Byte) :
    Takes (ampHalf lo) hi fun s => ended s Flag.none { s.store with amplitude := joinBytes hi lo } :=
  takes_of_exec (fun _ => rfl) fun _ hl hd => exec_amp_payload_half hl hi hd

/-! ### The end of a message, and a run of unassigned bytes (R89, R112) -/

/-- A message of the kind `mk` has ended with the flags `flags`, the store `p` and the memory `m` (R112). -/
def MessageEnded (mk : MessageKind) (flags : Bits3) (p : PatternStore) (m : Memory) (s : State) : Prop :=
  s.store = p ∧ s.mem = m ∧ s.dec = DecoderState.initial ∧ s.lastError = flags ∧
    s.done = some { kind := mk, flags := flags }

theorem messageEnded_ended (s : State) (flags : Bits3) (p : PatternStore) :
    MessageEnded s.dec.messageKind flags p s.mem (ended s flags p) := ⟨rfl, rfl, rfl, rfl, rfl⟩

theorem legal_ended {s : State} (hl : s.legal = true) (e : Bits3) (r : List Event) :
    (ended (s.withEvents r) e s.store).legal = true :=
  legal_iff.2 ⟨.idle, (legal_iff.1 hl).2⟩

/-- Each byte is rejected in the state that the one before it left: Idle, with the same store and memory. -/
theorem run_unassigned (deny : Bits3) (rest : List Event) {bytes : List Byte} (hne : bytes ≠ [])
    (hu : ∀ t ∈ bytes, isUnassignedType t = true) {s : State} (hl : s.legal = true)
    (hd : s.dec = DecoderState.initial) (he : s.events = bytes.map (fun t => Event.byte t deny) ++ rest) :
    ∃ t, run bytes.length s = .next t ∧ MessageEnded .none Flag.unknownType s.store s.mem t ∧ t.events = rest := by
  induction bytes generalizing s with
  | nil => exact absurd rfl hne
  | cons b bytes ih =>
    obtain ⟨hb, hu⟩ := List.forall_mem_cons.1 hu
    rw [List.length_cons, run_succ (takes_unassigned hb s deny _ hl hd he)]
    rcases eq_or_ne bytes [] with rfl | hbytes
    · have hk : s.dec.messageKind = .none := by rw [hd]; rfl
      exact ⟨_, rfl, hk ▸ messageEnded_ended (s.withEvents rest) Flag.unknownType s.store, rfl⟩
    · exact ih hbytes hu (legal_ended hl _ _) rfl rfl

/-- Settles O55, by induction on the bytes: each is a rejected message, and the decoder is Idle again after it. -/
theorem unassignedBytesAreRejectedOneByOne : Obligations.UnassignedBytesAreRejectedOneByOne := by
  intro s bytes deny rest h hk hu hne he
  obtain ⟨t, ht, ⟨hstore, hmem, hdec, hlast, hdone⟩, hev⟩ := run_unassigned deny rest hne
    (fun t ht => isUnassignedType_iff.2 (hu t ht)) h.legal (dec_of_idle h.legal hk) he
  exact ⟨t, ht, hdec, hstore, hmem, hlast, hdone, hev⟩

/-! ### A message whose bytes move the decoder until the last one ends it -/

/-- From the Decoder State on, each of the bytes but the last moves the decoder alone, and the last one ends a message
of the kind `mk` with the flags `e` and the store update `upd`. -/
inductive EndsMessage (mk : MessageKind) (e : Bits3) (upd : PatternStore → PatternStore) :
    DecoderState → List Byte → Prop
  | last {d : DecoderState} {b : Byte} (hk : d.messageKind = mk) (h : Takes d b fun s => ended s e (upd s.store)) :
    EndsMessage mk e upd d [b]
  | cons {d d' : DecoderState} {b : Byte} {bs : List Byte} (h : Takes d b (moveTo d'))
    (hbs : EndsMessage mk e upd d' bs) : EndsMessage mk e upd d (b :: bs)

/-- The registers after `k` ticks (R140, R142). -/
def PatternStore.afterTicks (p : PatternStore) (k : Nat) : PatternStore :=
  { p with playIndex := advanceBy p.playIndex p.sampleCount k }

theorem PatternStore.afterTicks_zero {p : PatternStore} (h : p.playIndex.toNat < p.sampleCount.toNat) :
    p.afterTicks 0 = p := by
  rw [afterTicks, advanceBy_zero h]

theorem afterTicks_ticked {s : State} (h : StateInv s) (o : TickOut) (r : List Event) (k : Nat) :
    (ticked s o r).store.afterTicks k = s.store.afterTicks (k + 1) := by
  obtain ⟨-, -, hplay⟩ := h.store_bounds
  simp [ticked, PatternStore.afterTicks, advanceBy_advance hplay]

/-- Within the message: with the ticks still to come the store will be `p`, the memory is `m`, and the bytes still to
come end the message. -/
def InMessage (mk : MessageKind) (flags : Bits3) (upd : PatternStore → PatternStore) (p : PatternStore) (m : Memory)
    (e : List Event) (s : State) : Prop :=
  s.store.afterTicks (tickCount e) = p ∧ s.mem = m ∧ EndsMessage mk flags upd s.dec (eventBytes e)

section InMessage

variable {mk : MessageKind} {flags : Bits3} {upd : PatternStore → PatternStore} {p : PatternStore} {m : Memory}
  {e r : List Event} {s : State} {b : Byte} {deny : Bits3}

theorem InMessage.ticked (h : StateInv s) (hm : InMessage mk flags upd p m (.tick :: e) s) (o : TickOut)
    (r : List Event) : InMessage mk flags upd p m e (ticked s o r) := by
  obtain ⟨hstore, hmem, hends⟩ := hm
  exact ⟨(afterTicks_ticked h o r _).trans hstore, hmem, hends⟩

theorem InMessage.step_byte (h : StateInv s) (hne : eventBytes e ≠ []) (he : s.events = .byte b deny :: r)
    (hm : InMessage mk flags upd p m (.byte b deny :: e) s) :
    ∃ t, step s = .next t ∧ InMessage mk flags upd p m e t := by
  obtain ⟨hstore, hmem, hends⟩ := hm
  rw [eventBytes] at hends
  generalize hbs : eventBytes e = bs at hends hne
  cases hends with
  | last => exact absurd rfl hne
  | cons htakes hrest => exact ⟨_, htakes s deny r h.legal rfl he, hstore, hmem, hbs ▸ hrest⟩

theorem InMessage.step_last (h : StateInv s) (he : s.events = .byte b deny :: r)
    (hm : InMessage mk flags upd p m [.byte b deny] s) :
    ∃ t, step s = .next t ∧ MessageEnded mk flags (upd p) m t := by
  obtain ⟨hstore, rfl, hends⟩ := hm
  obtain ⟨-, -, hplay⟩ := h.store_bounds
  obtain rfl : s.store = p := (PatternStore.afterTicks_zero hplay).symm.trans hstore
  cases hends with
  | last hk htakes =>
    subst hk
    exact ⟨_, htakes s deny r h.legal rfl he, messageEnded_ended (s.withEvents r) flags _⟩
  | cons _ hrest => cases hrest

/-- The message runs with any ticks among its bytes: the last byte updates the store that the ticks have advanced. -/
theorem run_endsMessage {rest : List Event} (h : StateInv s) (hm : EndsMessage mk flags upd s.dec (eventBytes e))
    (hr : noReset e = true) (hl : ∃ e' b deny, e = e' ++ [.byte b deny]) (he : s.events = e ++ rest) :
    ∃ t, run e.length s = .next t ∧ MessageEnded mk flags (upd (s.store.afterTicks (tickCount e))) s.mem t ∧
      t.events = rest :=
  run_message (InMessage mk flags upd (s.store.afterTicks (tickCount e)) s.mem) _
    (fun _ _ r o hu hm => hm.ticked hu o r)
    (fun _ _ _ _ _ hu hne hev hm => hm.step_byte hu hne hev)
    (fun _ _ _ _ hu hev hm => hm.step_last hu hev)
    e rest s hr hl h he ⟨rfl, rfl, hm⟩

end InMessage

/-! ### Whole short messages (R92, R93) -/

theorem endsMessage_freq (v : Word) :
    EndsMessage .frequency Flag.none (fun p => { p with frequency := v }) DecoderState.initial
      (encodeMessage (.freq v)) := by
  refine .cons takes_typeFrequency (.cons (takes_freqHead (loByte v)) (.last rfl ?_))
  simpa using takes_freqHalf (hiByte v) (loByte v)

theorem endsMessage_amp (v : Word) :
    EndsMessage .amplitude Flag.none (fun p => { p with amplitude := v }) DecoderState.initial
      (encodeMessage (.amp v)) := by
  refine .cons takes_typeAmplitude (.cons (takes_ampHead (loByte v)) (.last rfl ?_))
  simpa using takes_ampHalf (hiByte v) (loByte v)

/-- Settles O49: the bytes of FREQ move the decoder twice, and the third sets `frequency`. -/
theorem freqMessageSetsFrequency : Obligations.FreqMessageSetsFrequency := by
  intro s v e rest h hk ⟨hr, hbytes, hl⟩ he
  have hm := endsMessage_freq v
  rw [← dec_of_idle h.legal hk, ← hbytes] at hm
  obtain ⟨t, ht, ⟨hstore, hmem, hdec, hlast, hdone⟩, hev⟩ := run_endsMessage h hm hr hl he
  exact ⟨t, ht, hstore, hmem, hdec, hlast, hdone, hev⟩

/-- Settles O50: the bytes of AMP move the decoder twice, and the third sets `amplitude`. -/
theorem ampMessageSetsAmplitude : Obligations.AmpMessageSetsAmplitude := by
  intro s v e rest h hk ⟨hr, hbytes, hl⟩ he
  have hm := endsMessage_amp v
  rw [← dec_of_idle h.legal hk, ← hbytes] at hm
  obtain ⟨t, ht, ⟨hstore, hmem, hdec, hlast, hdone⟩, hev⟩ := run_endsMessage h hm hr hl he
  exact ⟨t, ht, hstore, hmem, hdec, hlast, hdone, hev⟩

end Sys2Proof.Machine
end

section
/-! PROOFS. The statements of 42_decoder_pattern.md: what a byte step leaves alone, the bytes of a pattern message one
by one, and whole accepted and rejected pattern messages with ticks among their bytes. -/

namespace Sys2Proof.Machine

/-! ### What a byte step leaves of the read view (R105, R112, R116, R127) -/

theorem currentPattern_congr {s t : State} (hs : t.store = s.store)
    (hread : ∀ ch j, memRead t s.store.liveSel ch j = memRead s s.store.liveSel ch j) :
    currentPattern t = currentPattern s := by
  have hsample : liveSample t = liveSample s := by
    funext ch j
    rw [liveSample, hs, hread, liveSample]
  simp only [currentPattern, channelSamples, hs, hsample]

/-- Settles O48, effect by effect: a stored sample goes to the shadow bank, and a message that ends without a setter or
the commit leaves the store and the memory alone. -/
theorem readViewChangesOnlyAtMessageEnd : Obligations.ReadViewChangesOnlyAtMessageEnd := by
  intro s t i hi hx
  cases exec_byteEffect hi hx with
  | stored _ _ _ _ _ hcap _ =>
    exact .inl (currentPattern_congr rfl fun _ _ => memRead_live_of_shadow_write hcap rfl rfl)
  | moved | unknown | badDelimiter | drained => exact .inl (currentPattern_congr rfl fun _ _ => rfl)
  | frequencySet hk _ => exact .inr (.inl ⟨by rw [ended, hk]; rfl, rfl⟩)
  | amplitudeSet hk _ => exact .inr (.inr (.inl ⟨by rw [ended, hk]; rfl, rfl⟩))
  | committed hk => exact .inr (.inr (.inr ⟨by rw [ended, hk]; rfl, rfl, rfl, rfl⟩))

/-- Settles O21: the effects that store, set or commit need another message or no error, and in drain nothing is
claimed. -/
theorem drainStoresNothing : Obligations.DrainStoresNothing := by
  intro s t i hi hk herr hx
  cases exec_byteEffect hi hx with
  | moved hd _ hq => exact ⟨rfl, rfl, hd.claim_of_error (by rw [hq herr]; exact herr)⟩
  | stored _ _ _ he | committed _ _ _ he => exact absurd he herr
  | unknown hk' | frequencySet hk' | amplitudeSet hk' => exact absurd (hk.symm.trans hk') (by decide)
  | badDelimiter | drained => exact ⟨rfl, rfl, rfl⟩

theorem ByteEffect.reports_or_keeps {s t : State} {i : Instr} (h : ByteEffect s i t) :
    (∃ e, t.done = some { kind := s.dec.messageKind, flags := e } ∧ t.lastError = e ∧ t.dec = DecoderState.initial) ∨
      (t.done = none ∧ t.lastError = s.lastError) := by
  cases h with
  | moved | stored => exact .inr ⟨rfl, rfl⟩
  | _ => exact .inl ⟨_, rfl, rfl, rfl⟩

/-- Settles O42: a byte step by its effect; a tick reports no message. -/
theorem endOfMessageLatchesAndResets : Obligations.EndOfMessageLatchesAndResets := by
  intro s t i hx hreset
  rcases exec_next_cases hx with h | ⟨-, o, rfl⟩ | ⟨rfl, -⟩
  · exact h.reports_or_keeps
  · exact .inr ⟨rfl, rfl⟩
  · exact absurd rfl hreset

/-! ### Positions that read the byte otherwise (R85, R111) -/

/-- Outside a pattern message no field is selected (R33). -/
theorem Shape.fieldKind_eq_none {cap : Nat} {d : DecoderState} (h : Shape cap d) (hk : d.messageKind ≠ .pattern) :
    d.fieldKind = .none := by
  cases h with
  | idle | freq0 | freq1 | amp0 | amp1 => rfl
  | _ => exact absurd rfl hk

section Position

variable {s : State}

theorem enterMessage_refused {mk : MessageKind} {fk : FieldKind} (hk : s.dec.messageKind ≠ .none) :
    enterMessage mk fk s = .refused .wrongPosition := by
  unfold enterMessage
  split
  · exact absurd ‹_› hk
  · rfl

theorem frequencyStep_refused {b : Byte} (hk : s.dec.messageKind ≠ .frequency) :
    frequencyStep b s = .refused .wrongPosition := by
  unfold frequencyStep
  split
  · exact absurd ‹_› hk
  · exact absurd ‹_› hk
  · rfl

theorem amplitudeStep_refused {b : Byte} (hk : s.dec.messageKind ≠ .amplitude) :
    amplitudeStep b s = .refused .wrongPosition := by
  unfold amplitudeStep
  split
  · exact absurd ‹_› hk
  · exact absurd ‹_› hk
  · rfl

theorem unknownStep_refused {t : Byte} (ht : isUnassignedType t = true) (hk : s.dec.messageKind ≠ .none) :
    unknownStep t s = .refused .wrongPosition := by
  unfold unknownStep
  rw [if_pos ht]
  split
  · exact absurd ‹_› hk
  · rfl

theorem atField_refused {fk : FieldKind} {r : Result} (hp : (s.dec.messageKind, s.dec.fieldKind) ≠ (.pattern, fk)) :
    atField fk s r = .refused .wrongPosition :=
  if_neg fun ⟨hk, hf⟩ => hp (by rw [hk, hf])

/-- At another position without a field the message kind is another one, for the kind fixes the field there. -/
theorem messageKind_ne_of_position_ne {mk : MessageKind} (hl : s.legal = true) (hmk : mk ≠ .pattern)
    (hp : (s.dec.messageKind, s.dec.fieldKind) ≠ (mk, .none)) : s.dec.messageKind ≠ mk := by
  rintro rfl
  exact hp (by rw [(legal_iff.1 hl).1.fieldKind_eq_none hmk])

end Position

/-- Settles O38: each step function refuses another message kind or field; an `UNK` is checked before its position. -/
theorem otherPositionsRefused : Obligations.OtherPositionsRefused := by
  intro s i hl hi
  have kindNe {mk : MessageKind} := messageKind_ne_of_position_ne (mk := mk) hl
  constructor
  · intro hwf hp
    cases i with
    | pat p =>
      rw [exec, execPat, whenLegal_of_legal hl]
      cases p with
      | typeByte => exact enterMessage_refused (kindNe (by decide) hp)
      | length | data | delimiter => exact atField_refused hp
    | freq p =>
      rw [exec, execFreq, whenLegal_of_legal hl]
      cases p with
      | typeByte => exact enterMessage_refused (kindNe (by decide) hp)
      | payload => exact frequencyStep_refused (kindNe (by decide) hp)
    | amp p =>
      rw [exec, execAmp, whenLegal_of_legal hl]
      cases p with
      | typeByte => exact enterMessage_refused (kindNe (by decide) hp)
      | payload => exact amplitudeStep_refused (kindNe (by decide) hp)
    | unk u =>
      rw [exec, execUnk, whenLegal_of_legal hl]
      exact unknownStep_refused hwf (kindNe (by decide) hp)
    | tick => cases hi
    | reset => cases hi
  · intro hwf
    cases i with
    | unk u =>
      rw [exec, execUnk, whenLegal_of_legal hl, unknownStep, if_neg]
      rw [show isUnassignedType u = false from hwf]
      exact Bool.false_ne_true
    | _ => cases hwf

/-! ### The positions of a pattern message (R33) -/

/-- `PAT` before its first length byte. -/
def lengthHead : DecoderState := { DecoderState.initial with messageKind := .pattern, fieldKind := .length }

/-- `PAT` before its second length byte. -/
def lengthHalf (lo : Byte) : DecoderState := { lengthHead with byteIndex := 1#16, pendingLength := joinBytes 0#8 lo }

/-- `PAT` of `n` samples after its claim, with the flags `err`: all buffers are claimed unless it is in drain (R103,
R105). -/
def inField (err : Bits3) (fk : FieldKind) (ac : ActiveChannel) (i n : Word) : DecoderState :=
  { DecoderState.initial with
    messageKind := .pattern, fieldKind := fk, activeChannel := ac, byteIndex := i, pendingLength := n, error := err,
    shadowClaimed := if err = Flag.none then 0b111#3 else 0b000#3 }

/-- `i` of the `n` samples of channel `ch` have arrived: a sample is next, or the delimiter after the last one. -/
def atSample (err : Bits3) (ch : Channel) (i n : Word) : DecoderState :=
  if i = n then inField err .delimiter (.one ch) 0#16 n else inField err .data (.one ch) i n

/-- The flags of a pattern message after its length: in drain when the length is 0 or the claim is refused (R102,
R103). -/
def claimFlags (cap n : Nat) (deny : Bits3) : Bits3 :=
  if n = 0 ∨ cap < n ∨ deny ≠ 0#3 then Flag.allocationFailure else Flag.none

theorem claimFlags_of_refused {s : State} {n : Nat} {deny : Bits3} (h : claimRefused s n deny) :
    claimFlags s.params.cap n deny = Flag.allocationFailure := if_pos h

theorem claimFlags_of_granted {s : State} {n : Nat} {deny : Bits3} (h : ¬claimRefused s n deny) :
    claimFlags s.params.cap n deny = Flag.none := if_neg h

/-- Before the first sample of a channel: its delimiter is next when there are no samples (R104). -/
theorem atSample_zero (err : Bits3) (ch : Channel) (n : Word) :
    atSample err ch 0#16 n = inField err (if n = 0#16 then .delimiter else .data) (.one ch) 0#16 n := by
  by_cases hn : n = 0#16
  · rw [atSample, if_pos hn.symm, if_pos hn]
  · rw [atSample, if_neg (Ne.symm hn), if_neg hn]

theorem Shape.length_cases {cap : Nat} {d : DecoderState} (h : Shape cap d) (hf : d.fieldKind = .length) :
    d = lengthHead ∨ ∃ lo, d = lengthHalf lo := by
  cases h with
  | len0 => exact .inl rfl
  | len1 lo => exact .inr ⟨lo, rfl⟩
  | _ => cases hf

theorem Shape.data_cases {cap : Nat} {d : DecoderState} (h : Shape cap d) (hf : d.fieldKind = .data) :
    ∃ err ch i n, d = inField err .data (.one ch) i n ∧ i.toNat < n.toNat ∧ (err = Flag.none → n.toNat ≤ cap) := by
  cases h with
  | dataFill ch i n hi hn => exact ⟨Flag.none, ch, i, n, rfl, hi, fun _ => hn⟩
  | dataDrain ch i n hi => exact ⟨Flag.allocationFailure, ch, i, n, rfl, hi, fun h => absurd h (by decide)⟩
  | _ => cases hf

theorem Shape.delimiter_cases {cap : Nat} {d : DecoderState} (h : Shape cap d) (hf : d.fieldKind = .delimiter) :
    ∃ err ch n, d = inField err .delimiter (.one ch) 0#16 n ∧ (err = Flag.none ∨ err = Flag.allocationFailure) := by
  cases h with
  | delimFill ch n => exact ⟨Flag.none, ch, n, rfl, .inl rfl⟩
  | delimDrain ch n => exact ⟨Flag.allocationFailure, ch, n, rfl, .inr rfl⟩
  | _ => cases hf

/-! ### What each byte does (R100 to R110) -/

/-- The memory after a sample byte: nothing is stored in drain (R105, R106). -/
def storeSample (err : Bits3) (k : Bank) (ch : Channel) (i : Nat) (b : Byte) (m : Memory) : Memory :=
  if err = Flag.none then m.write (cellKey k ch i) b else m

/-- The store after the third good delimiter: the commit, or nothing in drain (R110). -/
def finishedStore (err : Bits3) (n : Word) (p : PatternStore) : PatternStore :=
  if err = Flag.none then { p with liveSel := 1#1 - p.liveSel, sampleCount := n, playIndex := 0#16 } else p

@[simp] theorem State.withDec_withDec (s : State) (d d' : DecoderState) : (s.withDec d).withDec d' = s.withDec d' := rfl

/-- The Decoder State between the second length byte and the claim. -/
def lengthDone (n : Word) : DecoderState := { lengthHead with byteIndex := 2#16, pendingLength := n }

/-- The claim, or the flag of a length 0, in its three cases: length 0, granted, refused (R102, R103). -/
theorem claim_lengthDone (s : State) (n : Word) (deny : Bits3) :
    (if n = 0#16 then raiseFlag Flag.zeroLenErr (moveTo (lengthDone n) s) else claim deny (moveTo (lengthDone n) s)) =
      moveTo (inField (claimFlags s.params.cap n.toNat deny) .length .all 2#16 n) s := by
  by_cases hz : n = 0#16
  · have hflags : claimFlags s.params.cap n.toNat deny = Flag.allocationFailure := if_pos (.inl (by rw [hz]; rfl))
    rw [hflags, if_pos hz]
    simp [raiseFlag, moveTo, inField, lengthDone, lengthHead, DecoderState.initial, Flag.zeroLenErr,
      Flag.allocationFailure, Flag.none]
  · have hpos : n.toNat ≠ 0 := (toNat_pos_of_ne hz).ne'
    by_cases hc : n.toNat ≤ s.params.cap ∧ deny = 0#3
    · have hflags : claimFlags s.params.cap n.toNat deny = Flag.none := if_neg (by simp [hpos, hc])
      rw [hflags, if_neg hz, claim_granted hc.1 hc.2]
      rfl
    · have hflags : claimFlags s.params.cap n.toNat deny = Flag.allocationFailure :=
        if_pos (.inr (by rwa [← not_le, Ne, ← not_and_or]))
      rw [hflags, if_neg hz, claim_refused hc]
      simp [raiseFlag, release, moveTo, inField, lengthDone, lengthHead, DecoderState.initial, Flag.allocationFailure,
        Flag.none]

theorem enterField_inField (ch : Channel) (err : Bits3) (fk : FieldKind) (ac : ActiveChannel) (i n : Word) (s : State) :
    enterField ch (moveTo (inField err fk ac i n) s) = moveTo (atSample err ch 0#16 n) s := by
  rw [atSample_zero]
  rfl

theorem countByte_inField {s : State} {err : Bits3} {ch : Channel} {i n : Word}
    (hd : s.dec = inField err .data (.one ch) i n) : countByte s = s.withDec (atSample err ch (i + 1#16) n) := by
  by_cases he : i + 1#16 = n
  · rw [countByte_eq (by rw [hd]; exact he), hd, atSample, if_pos he]
    rfl
  · rw [countByte_ne (by rw [hd]; exact he), hd, atSample, if_neg he]
    rfl

theorem finishPattern_inField {s : State} {err : Bits3} {fk : FieldKind} {ac : ActiveChannel} {i n : Word}
    (hd : s.dec = inField err fk ac i n) :
    finishPattern (clearOutputs s) = ended s err (finishedStore err n s.store) := by
  by_cases herr : err = Flag.none
  · have hcommit : commit (clearOutputs s) =
        ((clearOutputs s).withDec { s.dec with shadowClaimed := 0b000#3 }).withStore
          { s.store with
            liveSel := 1#1 - s.store.liveSel, sampleCount := s.dec.pendingLength, playIndex := 0#16 } := rfl
    rw [finishPattern, if_neg (by simp [inError, hd, inField, herr]), hcommit, endMessage_eq_ended (by rfl),
      finishedStore, if_pos herr, hd]
    rfl
  · rw [finishPattern, if_pos (by simp [inError, hd, inField, herr]), finishedStore, if_neg herr]
    exact (endMessage_eq_ended (d := s.dec) rfl s.store).trans (by rw [hd]; rfl)

section Pattern

variable {s : State} (hl : s.legal = true) (b : Byte)
include hl

theorem exec_length (deny : Bits3) (hk : s.dec.messageKind = .pattern) (hf : s.dec.fieldKind = .length) :
    exec (.pat (.length b deny)) s = lengthStep b deny (clearOutputs s) := by
  rw [exec, execPat, whenLegal_of_legal hl]
  exact if_pos ⟨hk, hf⟩

theorem exec_data (hk : s.dec.messageKind = .pattern) (hf : s.dec.fieldKind = .data) :
    exec (.pat (.data b)) s = dataStep b (clearOutputs s) := by
  rw [exec, execPat, whenLegal_of_legal hl]
  exact if_pos ⟨hk, hf⟩

theorem exec_delimiter (hk : s.dec.messageKind = .pattern) (hf : s.dec.fieldKind = .delimiter) :
    exec (.pat (.delimiter b)) s = delimiterStep b (clearOutputs s) := by
  rw [exec, execPat, whenLegal_of_legal hl]
  exact if_pos ⟨hk, hf⟩

theorem exec_length_head (deny : Bits3) (hd : s.dec = lengthHead) :
    exec (.pat (.length b deny)) s = .next (moveTo (lengthHalf b) s) := by
  rw [exec_length hl b deny (by rw [hd]; rfl) (by rw [hd]; rfl)]
  simp [lengthStep, hd, lengthHead, DecoderState.initial, spliceIndex, moveTo, lengthHalf]

theorem exec_length_half (deny : Bits3) {lo : Byte} (hd : s.dec = lengthHalf lo) :
    exec (.pat (.length b deny)) s =
      .next (moveTo (atSample (claimFlags s.params.cap (joinBytes b lo).toNat deny) .a 0#16 (joinBytes b lo)) s) := by
  rw [exec_length hl b deny (by rw [hd]; rfl) (by rw [hd]; rfl), ← enterField_inField, ← claim_lengthDone]
  simp [lengthStep, hd, lengthHalf, lengthHead, lengthDone, moveTo, DecoderState.initial, spliceIndex, lengthComplete]

theorem exec_sample {err : Bits3} {ch : Channel} {i n : Word} (hd : s.dec = inField err .data (.one ch) i n) :
    exec (.pat (.data b)) s =
      .next (moveTo (atSample err ch (i + 1#16) n)
        (s.withMem (storeSample err (shadowBank s) ch i.toNat b s.mem))) := by
  obtain ⟨err', ch', i', n', hd', hi, hcap⟩ := (legal_iff.1 hl).1.data_cases (by rw [hd]; rfl)
  rw [hd] at hd'
  cases hd'
  rw [exec_data hl b (by rw [hd]; rfl) (by rw [hd]; rfl), dataStep]
  simp only [clearOutputs_dec, hd, inField]
  by_cases herr : err = Flag.none
  · have hcap' : i.toNat < (clearOutputs s).params.cap := Nat.lt_of_lt_of_le hi (hcap herr)
    rw [if_neg (by simp [inError, hd, herr, inField]), memWrite_eq b hcap', storeSample, if_pos herr]
    exact congrArg Host.Outcome.next
      (countByte_inField (s := (clearOutputs s).withMem (s.mem.write (cellKey (shadowBank s) ch i.toNat) b)) hd)
  · rw [if_pos (by simp [inError, hd, herr, inField]), storeSample, if_neg herr]
    exact congrArg _ (countByte_inField hd)

theorem exec_good_delimiter {err : Bits3} {ch ch' : Channel} {n : Word}
    (hd : s.dec = inField err .delimiter (.one ch) 0#16 n) (hch : nextChannel ch = some ch') :
    exec (.pat (.delimiter Config.delim)) s = .next (moveTo (atSample err ch' 0#16 n) s) := by
  rw [exec_delimiter hl _ (by rw [hd]; rfl) (by rw [hd]; rfl), delimiterStep]
  simp only [clearOutputs_dec, hd, inField, ne_eq, not_true_eq_false, if_false, hch]
  rw [← enterField_inField ch' err .delimiter (.one ch) 0#16, ← hd]
  rfl

theorem exec_bad_delimiter {err : Bits3} {ch : Channel} {n : Word}
    (hd : s.dec = inField err .delimiter (.one ch) 0#16 n) (hb : b ≠ Config.delim) :
    exec (.pat (.delimiter b)) s = .next (ended s (err ||| Flag.badDelimiter) s.store) := by
  rw [exec_delimiter hl _ (by rw [hd]; rfl) (by rw [hd]; rfl), delimiterStep]
  simp [hd, inField, hb, rejectMessage_clearOutputs]

theorem exec_last_delimiter {err : Bits3} {n : Word} (hd : s.dec = inField err .delimiter (.one .c) 0#16 n) :
    exec (.pat (.delimiter Config.delim)) s = .next (ended s err (finishedStore err n s.store)) := by
  rw [exec_delimiter hl _ (by rw [hd]; rfl) (by rw [hd]; rfl), delimiterStep]
  simp only [clearOutputs_dec, hd, inField, ne_eq, not_true_eq_false, if_false, nextChannel]
  rw [finishPattern_inField hd]

end Pattern

/-- Settles O15: R33 leaves two positions in the length field; after the second byte `claimFlags` says which of the
three cases it is. -/
theorem lengthFieldStep : Obligations.LengthFieldStep := by
  rintro s b deny _ hl - hf rfl
  rcases (legal_iff.1 hl).1.length_cases hf with hd | ⟨lo, hd⟩
  · have hi : s.dec.byteIndex ≠ 1#16 := by simp [hd, lengthHead, DecoderState.initial]
    refine ⟨fun _ => ?_, fun h => absurd h hi, fun h => absurd h hi, fun h => absurd h hi⟩
    rw [exec_length_head hl b deny hd, hd]
    rfl
  · have hlo : loByte s.dec.pendingLength = lo := by simp [hd, lengthHalf]
    rw [hlo, exec_length_half hl b deny hd]
    generalize joinBytes b lo = n
    refine ⟨fun h => absurd h (by simp [hd, lengthHalf]), ?_, ?_, ?_⟩
    · rintro - rfl
      rw [show claimFlags s.params.cap (0#16).toNat deny = _ from claimFlags_of_refused (.inl rfl), hd]
      rfl
    · intro _ hn hcap hdeny
      have hpos : n.toNat ≠ 0 := (toNat_pos_of_ne hn).ne'
      rw [claimFlags_of_granted (by simp [claimRefused, hpos, hcap, hdeny]), atSample, if_neg (Ne.symm hn), hd]
      rfl
    · intro _ hn hrefused
      rw [claimFlags_of_refused (.inr hrefused), atSample, if_neg (Ne.symm hn), hd]
      rfl

/-- Settles O16: `atSample` is the next position and `storeSample` the memory, on words. -/
theorem dataByteStep : Obligations.DataByteStep := by
  intro s b hl _ hf
  obtain ⟨err, ch, i, n, hd, hi, hcap⟩ := (legal_iff.1 hl).1.data_cases hf
  refine ⟨ch, by rw [hd]; rfl, by rw [hd]; exact hi, fun herr => ?_, ?_⟩
  · rw [hd] at herr ⊢
    exact Nat.lt_of_lt_of_le hi (hcap herr)
  · have hlast : i + 1#16 = n ↔ i.toNat + 1 = n.toNat := by
      rw [← add_one_toNat hi, BitVec.toNat_inj]
    rw [exec_sample hl b hd, hd, atSample, if_congr hlast rfl rfl]
    rfl

/-- Settles O18: `nextChannel` names the channel, and `atSample_zero` its field. -/
theorem goodDelimiterMovesOn : Obligations.GoodDelimiterMovesOn := by
  intro s ch' hl _ hf hch
  obtain ⟨err, ch, n, hd, -⟩ := (legal_iff.1 hl).1.delimiter_cases hf
  have hnext : nextChannel ch = some ch' := by
    rw [hd] at hch
    rcases hch with ⟨hch, rfl⟩ | ⟨hch, rfl⟩ <;> cases hch <;> rfl
  rw [show 0x55#8 = Config.delim from rfl, exec_good_delimiter hl hd hnext, atSample_zero, hd]
  rfl

/-- Settles O19: R33 leaves no error or `AllocationFailure`, to which `BadDelimiter` is added. -/
theorem badDelimiterRejects : Obligations.BadDelimiterRejects := by
  intro s b hl hk hf hb
  obtain ⟨err, ch, n, hd, herr⟩ := (legal_iff.1 hl).1.delimiter_cases hf
  rw [exec_bad_delimiter hl b hd hb, ended, hk, hd]
  rcases herr with rfl | rfl <;> rfl

/-- Settles O20: `finishedStore` is the commit without error and the same store in drain. -/
theorem lastDelimiterEndsMessage : Obligations.LastDelimiterEndsMessage := by
  intro s hl hk hf hch
  obtain ⟨err, ch, n, hd, herr⟩ := (legal_iff.1 hl).1.delimiter_cases hf
  have hc : ch = .c := by
    rw [hd] at hch
    cases hch
    rfl
  subst hc
  rw [show 0x55#8 = Config.delim from rfl, exec_last_delimiter hl hd, ended, hk, hd]
  rcases herr with rfl | rfl
  · exact ⟨fun _ => rfl, fun h => absurd rfl h⟩
  · exact ⟨fun h => absurd h (show Flag.allocationFailure ≠ Flag.none by decide), fun _ => rfl⟩

/-! ### The samples of one channel, stored one after another (R106) -/

/-- The memory after the samples `bytes` of channel `ch` from index `i` on: as it was, in drain. -/
def storeSamples (err : Bits3) (k : Bank) (ch : Channel) : Nat → List Byte → Memory → Memory
  | _, [], m => m
  | i, b :: bs, m => storeSamples err k ch (i + 1) bs (storeSample err k ch i b m)

theorem read_storeSample_of_ne {err : Bits3} {k k' : Bank} {ch ch' : Channel} {i j : Nat} (b : Byte) (m : Memory)
    (hi : i < 65536) (hj : j < 65536) (hne : k' ≠ k ∨ ch' ≠ ch ∨ j ≠ i) :
    (storeSample err k ch i b m).read (cellKey k' ch' j) = m.read (cellKey k' ch' j) := by
  unfold storeSample
  split
  · refine Memory.read_write_other m b fun hkey => ?_
    obtain ⟨hk, hch, hij⟩ := cellKey_inj hj hi hkey
    rcases hne with h | h | h
    · exact h hk
    · exact h hch
    · exact h hij
  · rfl

/-- The samples leave the other bank, the other channels and the indices before theirs alone. -/
theorem read_storeSamples_of_ne {err : Bits3} {k k' : Bank} {ch ch' : Channel} {j : Nat} (hj : j < 65536)
    (bytes : List Byte) :
    ∀ (i : Nat) (m : Memory), i + bytes.length ≤ 65536 → (k' ≠ k ∨ ch' ≠ ch ∨ j < i) →
      (storeSamples err k ch i bytes m).read (cellKey k' ch' j) = m.read (cellKey k' ch' j) := by
  induction bytes with
  | nil => exact fun _ _ _ _ => rfl
  | cons b bs ih =>
    intro i m hlen hne
    rw [List.length_cons] at hlen
    rw [storeSamples, ih (i + 1) _ (by omega) (hne.imp_right (Or.imp_right Nat.lt_succ_of_lt)),
      read_storeSample_of_ne b m (by omega) hj (hne.imp_right (Or.imp_right Nat.ne_of_lt))]

theorem read_storeSamples {k : Bank} {ch : Channel} {bytes : List Byte} :
    ∀ (i j : Nat) (m : Memory), i + bytes.length ≤ 65536 → j < bytes.length →
      (storeSamples Flag.none k ch i bytes m).read (cellKey k ch (i + j)) = bytes[j]? := by
  induction bytes with
  | nil => exact fun _ _ _ _ hj => absurd hj (Nat.not_lt_zero _)
  | cons b bs ih =>
    intro i j m hlen hj
    rw [List.length_cons] at hlen hj
    cases j with
    | zero =>
      rw [storeSamples, read_storeSamples_of_ne (by omega) bs (i + 1) _ (by omega) (.inr (.inr (by omega))),
        storeSample, if_pos rfl]
      exact Memory.read_write_same m _ b
    | succ j =>
      rw [storeSamples, show i + (j + 1) = i + 1 + j by omega, ih (i + 1) j _ (by omega) (by omega)]
      rfl

/-! ### A message whose bytes may store samples -/

/-- `EndsMessage` with a memory: from the Decoder State and the memory on, with the shadow bank `k`, each of the bytes
but the last moves the decoder and may change the memory, and the last one ends a pattern message with the flags
`flags`, the store update `upd` and the memory `m'`. -/
inductive EndsPattern (k : Bank) (flags : Bits3) (upd : PatternStore → PatternStore) (m' : Memory) :
    DecoderState → Memory → List Byte → Prop
  | last {d : DecoderState} {b : Byte} (hk : d.messageKind = .pattern)
    (h : Takes d b fun s => ended s flags (upd s.store)) : EndsPattern k flags upd m' d m' [b]
  | cons {d d' : DecoderState} {m : Memory} {b : Byte} {bs : List Byte} (w : Bank → Memory → Memory)
    (h : Takes d b fun s => moveTo d' (s.withMem (w (shadowBank s) s.mem)))
    (hbs : EndsPattern k flags upd m' d' (w k m) bs) : EndsPattern k flags upd m' d m (b :: bs)

section Fields

variable {k : Bank} {flags err : Bits3} {upd : PatternStore → PatternStore} {m m' : Memory} {ch ch' : Channel}
  {n : Word} {bytes rest : List Byte}

/-- The samples of a channel, up to its delimiter. -/
theorem EndsPattern.samples : ∀ (bytes : List Byte) (i : Word) (m : Memory), i.toNat + bytes.length = n.toNat →
    EndsPattern k flags upd m' (inField err .delimiter (.one ch) 0#16 n) (storeSamples err k ch i.toNat bytes m) rest →
      EndsPattern k flags upd m' (atSample err ch i n) m (bytes ++ rest) := by
  intro bytes
  induction bytes with
  | nil =>
    intro i m hlen h
    rw [atSample, if_pos (BitVec.eq_of_toNat_eq hlen)]
    exact h
  | cons b bs ih =>
    intro i m hlen h
    rw [List.length_cons] at hlen
    have hi : i.toNat < n.toNat := by omega
    rw [atSample, if_neg fun hin => Nat.ne_of_lt hi (congrArg BitVec.toNat hin)]
    refine .cons (fun k m => storeSample err k ch i.toNat b m)
      (takes_of_exec (i := .pat (.data b)) (fun _ => rfl) fun s hl hd => exec_sample hl b hd) (ih (i + 1#16) _ ?_ ?_)
    · rw [add_one_toNat hi]
      omega
    · rw [add_one_toNat hi]
      exact h

theorem EndsPattern.good_delimiter (hch : nextChannel ch = some ch')
    (h : EndsPattern k flags upd m' (atSample err ch' 0#16 n) m rest) :
    EndsPattern k flags upd m' (inField err .delimiter (.one ch) 0#16 n) m (Config.delim :: rest) :=
  .cons (fun _ m => m)
    (takes_of_exec (i := .pat (.delimiter Config.delim)) (fun _ => rfl) fun _ hl hd => exec_good_delimiter hl hd hch) h

theorem endsPattern_bad_delimiter {d : Byte} (hd : d ≠ Config.delim) :
    EndsPattern k (err ||| Flag.badDelimiter) id m (inField err .delimiter (.one ch) 0#16 n) m [d] :=
  .last rfl (takes_of_exec (i := .pat (.delimiter d)) (fun _ => rfl) fun _ hl hs => exec_bad_delimiter hl d hs hd)

theorem endsPattern_last_delimiter :
    EndsPattern k err (finishedStore err n) m (inField err .delimiter (.one .c) 0#16 n) m [Config.delim] :=
  .last rfl
    (takes_of_exec (i := .pat (.delimiter Config.delim)) (fun _ => rfl) fun _ hl hs => exec_last_delimiter hl hs)

/-- A whole channel: its samples, its good delimiter, and the rest from the next channel on. -/
theorem EndsPattern.channel (hlen : bytes.length = n.toNat) (hch : nextChannel ch = some ch')
    (h : EndsPattern k flags upd m' (atSample err ch' 0#16 n) (storeSamples err k ch 0 bytes m) rest) :
    EndsPattern k flags upd m' (atSample err ch 0#16 n) m (bytes ++ Config.delim :: rest) :=
  .samples bytes 0#16 m (by simpa using hlen) (.good_delimiter hch h)

end Fields

/-! ### A run over the events of a pattern message -/

/-- After the header of `n` samples with the draw `deny`, in a message that began in `s₀` (R101 to R104), the body ends
the message. -/
def BodyEnds (s₀ : State) (deny : Bits3) (n : Word) (flags : Bits3) (upd : PatternStore → PatternStore) (m' m : Memory)
    (body : List Byte) : Prop :=
  EndsPattern (shadowBank s₀) flags upd m' (atSample (claimFlags s₀.params.cap n.toNat deny) .a 0#16 n) m body

/-- From Idle in the state `s₀` or later in the message: the bytes still to come complete the header of `n` samples,
with the draw `deny` at its last byte, and the body after it ends the message, or they are the rest of the body. -/
inductive AwaitsPattern (s₀ : State) (deny : Bits3) (n : Word) (flags : Bits3) (upd : PatternStore → PatternStore)
    (m' : Memory) (d : DecoderState) (m : Memory) (e : List Event) : Prop
  | idle {body : List Byte} (hd : d = DecoderState.initial)
    (hbytes : eventBytes e = Config.typePattern :: loByte n :: hiByte n :: body) (hdraw : drawAt 2 e = some deny)
    (hbody : BodyEnds s₀ deny n flags upd m' m body)
  | head {body : List Byte} (hd : d = lengthHead) (hbytes : eventBytes e = loByte n :: hiByte n :: body)
    (hdraw : drawAt 1 e = some deny)
    (hbody : BodyEnds s₀ deny n flags upd m' m body)
  | half {body : List Byte} (hd : d = lengthHalf (loByte n)) (hbytes : eventBytes e = hiByte n :: body)
    (hdraw : drawAt 0 e = some deny)
    (hbody : BodyEnds s₀ deny n flags upd m' m body)
  | body (hbody : EndsPattern (shadowBank s₀) flags upd m' d m (eventBytes e))

/-- Within the message that began in `s₀`: with the ticks still to come the store will be `p`. -/
def InPattern (s₀ : State) (deny : Bits3) (n : Word) (flags : Bits3) (upd : PatternStore → PatternStore) (m' : Memory)
    (p : PatternStore) (e : List Event) (s : State) : Prop :=
  s.store.afterTicks (tickCount e) = p ∧ shadowBank s = shadowBank s₀ ∧ s.params = s₀.params ∧
    AwaitsPattern s₀ deny n flags upd m' s.dec s.mem e

theorem takes_typePattern : Takes DecoderState.initial Config.typePattern (moveTo lengthHead) := by
  refine takes_of_exec (i := .pat .typeByte) (fun _ => rfl) fun s hl hd => ?_
  rw [exec_pat_typeByte hl (by rw [hd]; rfl), setPos, clearOutputs_dec, hd]
  rfl

/-- The first length byte is read without its draw. -/
theorem step_lengthHead {s : State} {lo : Byte} {deny : Bits3} {r : List Event} (hl : s.legal = true)
    (hd : s.dec = lengthHead) (he : s.events = .byte lo deny :: r) :
    step s = .next (moveTo (lengthHalf lo) (s.withEvents r)) :=
  step_byte he (by rw [hd]; rfl) (exec_length_head (s := s.withEvents r) hl lo deny hd)

theorem step_lengthHalf {s : State} {n : Word} {deny : Bits3} {r : List Event} (hl : s.legal = true)
    (hd : s.dec = lengthHalf (loByte n)) (he : s.events = .byte (hiByte n) deny :: r) :
    step s = .next (moveTo (atSample (claimFlags s.params.cap n.toNat deny) .a 0#16 n) (s.withEvents r)) := by
  have hx := exec_length_half (s := s.withEvents r) hl (hiByte n) deny hd
  rw [joinBytes_hiByte_loByte] at hx
  exact step_byte he (by rw [hd]; rfl) hx

section InPattern

variable {s₀ s : State} {deny deny' flags : Bits3} {n : Word} {upd : PatternStore → PatternStore} {m m' : Memory}
  {p : PatternStore} {d : DecoderState} {b : Byte} {e r : List Event}

theorem AwaitsPattern.ticked (h : AwaitsPattern s₀ deny n flags upd m' d m (.tick :: e)) :
    AwaitsPattern s₀ deny n flags upd m' d m e := by
  cases h with
  | idle hd hbytes hdraw hbody => exact .idle hd hbytes (drawAt_tick 2 e ▸ hdraw) hbody
  | head hd hbytes hdraw hbody => exact .head hd hbytes (drawAt_tick 1 e ▸ hdraw) hbody
  | half hd hbytes hdraw hbody => exact .half hd hbytes (drawAt_tick 0 e ▸ hdraw) hbody
  | body hbody => exact .body hbody

theorem InPattern.ticked (h : StateInv s) (hm : InPattern s₀ deny n flags upd m' p (.tick :: e) s) (o : TickOut)
    (r : List Event) : InPattern s₀ deny n flags upd m' p e (ticked s o r) := by
  obtain ⟨hstore, hbank, hparams, hawait⟩ := hm
  exact ⟨(afterTicks_ticked h o r _).trans hstore, hbank, hparams, hawait.ticked⟩

theorem InPattern.step_byte (h : StateInv s) (hne : eventBytes e ≠ []) (he : s.events = .byte b deny' :: r)
    (hm : InPattern s₀ deny n flags upd m' p (.byte b deny' :: e) s) :
    ∃ t, step s = .next t ∧ InPattern s₀ deny n flags upd m' p e t := by
  obtain ⟨hstore, hbank, hparams, hawait⟩ := hm
  cases hawait with
  | idle hd hbytes hdraw hbody =>
    obtain ⟨rfl, hlater⟩ := List.cons.inj hbytes
    exact ⟨_, takes_typePattern s deny' r h.legal hd he, hstore, hbank, hparams, .head rfl hlater hdraw hbody⟩
  | head hd hbytes hdraw hbody =>
    obtain ⟨rfl, hlater⟩ := List.cons.inj hbytes
    exact ⟨_, step_lengthHead h.legal hd he, hstore, hbank, hparams, .half rfl hlater hdraw hbody⟩
  | half hd hbytes hdraw hbody =>
    obtain ⟨rfl, rfl⟩ := List.cons.inj hbytes
    obtain rfl : deny' = deny := Option.some.inj hdraw
    rw [BodyEnds, ← hparams] at hbody
    exact ⟨_, step_lengthHalf h.legal hd he, hstore, hbank, hparams, .body hbody⟩
  | body hbody =>
    rw [eventBytes] at hbody
    generalize hbs : eventBytes e = bs at hbody hne
    cases hbody with
    | last => exact absurd rfl hne
    | cons w htakes hrest =>
      rw [← hbank, ← hbs] at hrest
      exact ⟨_, htakes s deny' r h.legal rfl he, hstore, hbank, hparams, .body (hbank ▸ hrest)⟩

theorem InPattern.step_last (h : StateInv s) (he : s.events = .byte b deny' :: r)
    (hm : InPattern s₀ deny n flags upd m' p [.byte b deny'] s) :
    ∃ t, step s = .next t ∧ MessageEnded .pattern flags (upd p) m' t ∧ t.params = s₀.params := by
  obtain ⟨hstore, -, hparams, hawait⟩ := hm
  obtain ⟨-, -, hplay⟩ := h.store_bounds
  obtain rfl : s.store = p := (PatternStore.afterTicks_zero hplay).symm.trans hstore
  cases hawait with
  | idle _ hbytes => cases (List.cons.inj hbytes).2
  | head _ hbytes => cases (List.cons.inj hbytes).2
  | half _ hbytes _ hbody =>
    obtain rfl := (List.cons.inj hbytes).2
    rw [BodyEnds] at hbody
    cases hbody
  | body hbody =>
    cases hbody with
    | last hk htakes =>
      exact ⟨_, htakes s deny' r h.legal rfl he, hk ▸ messageEnded_ended (s.withEvents r) flags _, hparams⟩
    | cons _ _ hrest => cases hrest

end InPattern

/-- A pattern message runs with any ticks among its bytes: its last byte updates the store that the ticks have
advanced. -/
theorem run_pattern {s : State} {deny flags : Bits3} {n : Nat} {upd : PatternStore → PatternStore} {m' : Memory}
    {body : List Byte} {e rest : List Event} (h : StateInv s) (hk : s.dec.messageKind = .none) {m : Message}
    (hcarries : carries m e) (hbytes : encodeMessage m = encodePatHead n ++ body) (hn : n < 65536)
    (hdraw : drawAt 2 e = some deny)
    (hbody : EndsPattern (shadowBank s) flags upd m'
      (atSample (claimFlags s.params.cap n deny) .a 0#16 (.ofNat 16 n)) s.mem body)
    (he : s.events = e ++ rest) :
    ∃ t, run e.length s = .next t ∧
      (MessageEnded .pattern flags (upd (s.store.afterTicks (tickCount e))) m' t ∧ t.params = s.params) ∧
        t.events = rest := by
  obtain ⟨hr, hcarried, hl⟩ := hcarries
  have hlen : (BitVec.ofNat 16 n).toNat = n := by simpa using hn
  refine run_message (InPattern s deny (.ofNat 16 n) flags upd m' (s.store.afterTicks (tickCount e))) _
    (fun _ _ r o hu hm => hm.ticked hu o r)
    (fun _ _ _ _ _ hu hne hev hm => hm.step_byte hu hne hev)
    (fun _ _ _ _ hu hev hm => hm.step_last hu hev)
    e rest s hr hl h he
    ⟨rfl, rfl, rfl, .idle (dec_of_idle h.legal hk) (hcarried.trans hbytes) hdraw ?_⟩
  rwa [BodyEnds, hlen]

/-! ### Accepted messages (R114) -/

/-- The memory after the samples of the three channels. -/
def storePattern (err : Bits3) (k : Bank) (a b c : List Byte) (m : Memory) : Memory :=
  storeSamples err k .c 0 c (storeSamples err k .b 0 b (storeSamples err k .a 0 a m))

/-- Three whole channels, in drain or not. -/
theorem endsPattern_pat {k : Bank} {err : Bits3} {m : Memory} {n : Word} {a b c : List Byte} (ha : a.length = n.toNat)
    (hb : b.length = n.toNat) (hc : c.length = n.toNat) :
    EndsPattern k err (finishedStore err n) (storePattern err k a b c m) (atSample err .a 0#16 n) m
      (a ++ Config.delim :: (b ++ Config.delim :: (c ++ [Config.delim]))) :=
  .channel ha rfl (.channel hb rfl (.samples c 0#16 _ (by simpa using hc) endsPattern_last_delimiter))

theorem read_storeSamples_same {k : Bank} {ch : Channel} {bytes : List Byte} {j : Nat} (m : Memory)
    (hlen : bytes.length ≤ 65536) (hj : j < bytes.length) :
    (storeSamples Flag.none k ch 0 bytes m).read (cellKey k ch j) = bytes[j]? := by
  have h := read_storeSamples (k := k) (ch := ch) 0 j m (by omega) hj
  rwa [Nat.zero_add] at h

theorem read_storeSamples_other {err : Bits3} {k k' : Bank} {ch ch' : Channel} {bytes : List Byte} {j : Nat}
    (m : Memory) (hlen : bytes.length ≤ 65536) (hj : j < 65536) (hne : k' ≠ k ∨ ch' ≠ ch) :
    (storeSamples err k ch 0 bytes m).read (cellKey k' ch' j) = m.read (cellKey k' ch' j) :=
  read_storeSamples_of_ne hj bytes 0 m (by omega) (hne.imp_right .inl)

/-- Each channel reads as its samples: the samples of the later channels go elsewhere. -/
theorem read_storePattern {k : Bank} {xs ys zs : List Byte} {m : Memory} {j : Nat} (hxs : xs.length ≤ 65536)
    (hys : ys.length = xs.length) (hzs : zs.length = xs.length) (hj : j < xs.length) :
    (storePattern Flag.none k xs ys zs m).read (cellKey k .a j) = xs[j]? ∧
      (storePattern Flag.none k xs ys zs m).read (cellKey k .b j) = ys[j]? ∧
        (storePattern Flag.none k xs ys zs m).read (cellKey k .c j) = zs[j]? := by
  unfold storePattern
  refine ⟨?_, ?_, ?_⟩
  · rw [read_storeSamples_other _ (by omega) (by omega) (.inr (by decide)),
      read_storeSamples_other _ (by omega) (by omega) (.inr (by decide)), read_storeSamples_same _ hxs hj]
  · rw [read_storeSamples_other _ (by omega) (by omega) (.inr (by decide)),
      read_storeSamples_same _ (by omega) (by omega)]
  · exact read_storeSamples_same _ (by omega) (by omega)

theorem channelSamples_eq_map_some {t : State} {ch : Channel} {bytes : List Byte}
    (hcount : t.store.sampleCount.toNat = bytes.length) (hcap : bytes.length ≤ t.params.cap)
    (hread : ∀ j < bytes.length, t.mem.read (cellKey t.store.liveSel ch j) = bytes[j]?) :
    channelSamples t ch = bytes.map some := by
  refine List.ext_getElem (by simp [hcount]) fun j _ hj => ?_
  have hj : j < bytes.length := by simpa using hj
  have hsample : liveSample t ch j = some bytes[j] :=
    liveSample_eq_some.2 (memRead_eq_ok.2 ⟨Nat.lt_of_lt_of_le hj hcap, by rw [hread j hj, List.getElem?_eq_getElem hj]⟩)
  simpa [channelSamples] using hsample

/-- Settles O51: the samples fill the shadow bank, the ticks only advance `play_index`, and the last delimiter commits
the bank. -/
theorem acceptedPatternIsCommitted : Obligations.AcceptedPatternIsCommitted := by
  intro s a b c e rest h hk hcarries hb hc hpos hcap hdraw he
  have hn : a.length < 65536 := by
    have := cap_le_max s.params
    omega
  have hlen : (BitVec.ofNat 16 a.length).toNat = a.length := by simpa using hn
  have hflags : claimFlags s.params.cap a.length 0#3 = Flag.none :=
    claimFlags_of_granted (by simp [claimRefused, Nat.ne_of_gt hpos, hcap])
  have hbody := endsPattern_pat (k := shadowBank s) (err := Flag.none) (m := s.mem) (n := .ofNat 16 a.length)
    hlen.symm (hb.trans hlen.symm) (hc.trans hlen.symm)
  obtain ⟨t, ht, ⟨⟨hstore, hmem, hdec, hlast, hdone⟩, hparams⟩, hev⟩ := run_pattern h hk hcarries
    (PatternBody.good rfl hb hc).encodeMessage_eq hn hdraw (by rwa [hflags]) he
  have hcount : t.store.sampleCount.toNat = a.length := by rw [hstore]; exact hlen
  have hlive : t.store.liveSel = shadowBank s := by rw [hstore]; rfl
  rw [← hparams] at hcap
  have hread {j : Nat} (hj : j < a.length) := read_storePattern (k := shadowBank s) (m := s.mem) hn.le hb hc hj
  refine ⟨t, ht, hstore, hcount, ?_, ?_, ?_, hdec, hlast, hdone, hev⟩
  · refine channelSamples_eq_map_some hcount hcap fun j hj => ?_
    rw [hmem, hlive]
    exact (hread hj).1
  · refine channelSamples_eq_map_some (hcount.trans hb.symm) (hb ▸ hcap) fun j hj => ?_
    rw [hmem, hlive]
    exact (hread (hb ▸ hj)).2.1
  · refine channelSamples_eq_map_some (hcount.trans hc.symm) (hc ▸ hcap) fun j hj => ?_
    rw [hmem, hlive]
    exact (hread (hc ▸ hj)).2.2

/-! ### Rejected messages (R115) -/

/-- The message ends early, at a wrong delimiter (R69). -/
def endsEarly : Message → Bool
  | .patBadA _ _ => true
  | .patBadB _ _ _ => true
  | .patBadC _ _ _ _ => true
  | _ => false

/-- The flags of a pattern message at its end: a wrong delimiter adds `BadDelimiter` (R109, R110). -/
def endFlags (err : Bits3) (early : Bool) : Bits3 := if early then err ||| Flag.badDelimiter else err

/-- A body that ends early or in drain leaves the store and the other bank alone. -/
theorem endsPattern_of_patternBody {N : Nat} {msg : Message} {body : List Byte} (h : PatternBody N msg body) {n : Word}
    (hn : n.toNat = N) (k : Bank) {err : Bits3} (m : Memory) (hrej : endsEarly msg = true ∨ err ≠ Flag.none) :
    ∃ m', EndsPattern k (endFlags err (endsEarly msg)) id m' (atSample err .a 0#16 n) m body ∧
      ∀ k' ch j, k' ≠ k → j < 65536 → m'.read (cellKey k' ch j) = m.read (cellKey k' ch j) := by
  subst hn
  have hlt := n.isLt
  have other {ch ch' : Channel} {k' : Bank} {bytes : List Byte} {j : Nat} (m : Memory) (hlen : bytes.length = n.toNat)
      (hj : j < 65536) (hk : k' ≠ k) :
      (storeSamples err k ch 0 bytes m).read (cellKey k' ch' j) = m.read (cellKey k' ch' j) :=
    read_storeSamples_other m (by omega) hj (.inl hk)
  cases h with
  | badA ha hd =>
    exact ⟨_, .samples _ 0#16 m (by simpa using ha) (endsPattern_bad_delimiter hd), fun _ _ _ hk hj => other m ha hj hk⟩
  | badB ha hb hd =>
    exact ⟨_, .channel ha rfl (.samples _ 0#16 _ (by simpa using hb) (endsPattern_bad_delimiter hd)),
      fun _ _ _ hk hj => (other _ hb hj hk).trans (other _ ha hj hk)⟩
  | badC ha hb hc hd =>
    exact ⟨_, .channel ha rfl (.channel hb rfl
      (.samples _ 0#16 _ (by simpa using hc) (endsPattern_bad_delimiter hd))),
      fun _ _ _ hk hj => (other _ hc hj hk).trans ((other _ hb hj hk).trans (other _ ha hj hk))⟩
  | good ha hb hc =>
    have herr : err ≠ Flag.none := hrej.resolve_left (by simp [endsEarly])
    have hstore : finishedStore err n = id := funext fun p => if_neg herr
    exact ⟨_, hstore ▸ endsPattern_pat ha hb hc,
      fun _ _ _ hk hj => (other _ hc hj hk).trans ((other _ hb hj hk).trans (other _ ha hj hk))⟩

/-- The two forms of the statement, a rejected claim (`P`) and a wrong delimiter, as one `PatternBody`. -/
theorem rejected_form {msg : Message} {n : Nat} {bad : Bool} {P : Prop} (hwf : msg.wellFormed = true)
    (hform : (∃ a b c, msg = .pat a b c ∧ n = a.length ∧ bad = false ∧ P) ∨
      ∃ a b c d, (msg = .patBadA a d ∨ msg = .patBadB a b d ∨ msg = .patBadC a b c d) ∧ n = a.length ∧ bad = true) :
    n < 65536 ∧ (∃ body, PatternBody n msg body) ∧ endsEarly msg = bad ∧ (bad = false → P) := by
  rcases hform with ⟨a, b, c, rfl, rfl, rfl, hp⟩ | ⟨a, b, c, d, rfl | rfl | rfl, rfl, rfl⟩ <;>
    simp only [Message.wellFormed, fitsLength, Bool.and_eq_true, decide_eq_true_eq, beq_iff_eq, bne_iff_ne] at hwf
  · obtain ⟨⟨hn, hb⟩, hc⟩ := hwf
    exact ⟨hn, ⟨_, .good rfl hb hc⟩, rfl, fun _ => hp⟩
  · obtain ⟨hn, hd⟩ := hwf
    exact ⟨hn, ⟨_, .badA rfl hd⟩, rfl, fun h => nomatch h⟩
  · obtain ⟨⟨hn, hb⟩, hd⟩ := hwf
    exact ⟨hn, ⟨_, .badB rfl hb hd⟩, rfl, fun h => nomatch h⟩
  · obtain ⟨⟨⟨hn, hb⟩, hc⟩, hd⟩ := hwf
    exact ⟨hn, ⟨_, .badC rfl hb hc hd⟩, rfl, fun h => nomatch h⟩

/-- Settles O52: the bytes only fill the shadow bank or nothing, and the last one releases it with the flags of the
table. -/
theorem rejectedPatternChangesNothing : Obligations.RejectedPatternChangesNothing := by
  intro s msg n bad deny e rest h hk hwf hcarries hdraw he hform
  obtain ⟨hn, ⟨body, hbody⟩, rfl, hrefused⟩ := rejected_form hwf hform
  have hrej : endsEarly msg = true ∨ claimFlags s.params.cap n deny ≠ Flag.none := by
    refine (Bool.eq_false_or_eq_true (endsEarly msg)).imp_right fun hgood => ?_
    rw [claimFlags_of_refused (hrefused hgood)]
    decide
  have hlen : (BitVec.ofNat 16 n).toNat = n := by simpa using hn
  obtain ⟨m', hends, hother⟩ := endsPattern_of_patternBody hbody hlen (shadowBank s) s.mem hrej
  obtain ⟨t, ht, ⟨⟨hstore, hmem, hdec, hlast, hdone⟩, hparams⟩, hev⟩ :=
    run_pattern h hk hcarries hbody.encodeMessage_eq hn hdraw hends he
  refine ⟨t, ht, ⟨hstore, fun ch i hi => ?_⟩, hdec, ?_, ?_, ?_, hlast.symm ▸ hdone, hev⟩
  · have hcap : i < s.params.cap := Nat.lt_of_lt_of_le hi h.store_bounds.2.1
    have hlive : t.store.liveSel = s.store.liveSel := by rw [hstore]; rfl
    simp only [liveSample, memRead, hlive, hparams, hmem, hother _ ch i (shadowBank_ne s).symm (lt_of_lt_cap hcap)]
  · intro hgood
    rw [hlast, hgood, claimFlags_of_refused (hrefused hgood)]
    rfl
  · intro hbad hclaim
    rw [hlast, hbad, claimFlags_of_refused hclaim]
    rfl
  · intro hbad hclaim
    rw [hlast, hbad, claimFlags_of_granted hclaim]
    rfl

end Sys2Proof.Machine
end

section
/-! PROOFS. The statements of 43_pattern_store.md: the reset state and every step keep the invariant, the commit publishes
the shadow bank, and a pattern sent again leaves the same read view. -/

namespace Sys2Proof.Machine

/-! ### The invariant of the reachable states (R28, R128) -/

/-- The state after the first reset is a reset of a state with no byte written. -/
theorem resetStep_resetOf (p : Params) : resetStep ((State.resetOf p).withMem []) = State.resetOf p := rfl

theorem inv_resetOf (p : Params) : StateInv (State.resetOf p) := by
  rw [← resetStep_resetOf]
  exact inv_reset rfl (List.forall_mem_nil _)

/-- Settles O31: `State.reset` is one of the instances. -/
theorem resetMeetsInvariant : Obligations.ResetMeetsInvariant := ⟨inv_resetOf Config.params, inv_resetOf⟩

theorem inv_step {s t : State} (h : StateInv s) (hx : step s = .next t) : StateInv t := by
  obtain ⟨e, rest, i, -, -, hx⟩ := step_next hx
  exact inv_exec (inv_of_withEvents.2 h) hx

/-- Settles O33: a step is an instruction on the state without its first event, and every instruction keeps the
invariant. -/
theorem stepKeepsInvariant : Obligations.StepKeepsInvariant := fun _ _ => inv_step

theorem run_succ_next {n : Nat} {s t : State} (h : run (n + 1) s = .next t) :
    ∃ u, step s = .next u ∧ run n u = .next t := by
  cases hs : step s with
  | next u => exact ⟨u, rfl, run_succ hs ▸ h⟩
  | fault | refused => simp [run, Host.Core.run, Sys2Proof.core, hs] at h

theorem inv_run {n : Nat} {s t : State} (h : StateInv s) (hx : run n s = .next t) : StateInv t := by
  induction n generalizing s with
  | zero => cases hx; exact h
  | succ n ih =>
    obtain ⟨u, hu, hx⟩ := run_succ_next hx
    exact ih (inv_step h hu) hx

/-! ### The commit (R54, R121) -/

/-- A delimiter step completes at a delimiter position only (R111). -/
theorem position_of_exec_delimiter {b : Byte} {s t : State} (hx : exec (.pat (.delimiter b)) s = .next t) :
    s.legal = true ∧ s.dec.messageKind = .pattern ∧ s.dec.fieldKind = .delimiter := by
  have hl : s.legal = true := legal_of_exec_next (by simp) hx
  rw [exec, execPat, whenLegal_of_legal hl] at hx
  exact ⟨hl, (atField_next.1 hx).1⟩

/-- Settles O46: the commit exchanges the banks and leaves the memory alone, so what was the shadow bank is read. -/
theorem commitPublishesShadowBank : Obligations.CommitPublishesShadowBank := by
  intro s t hx hch herr
  obtain ⟨hl, hk, hf⟩ := position_of_exec_delimiter hx
  rw [(lastDelimiterEndsMessage s hl hk hf hch).1 herr] at hx
  cases hx
  exact ⟨rfl, fun _ _ _ => rfl⟩

/-! ### The same pattern again (R129) -/

/-- Settles O53: both messages leave their samples, their length and index 0, neither touches the scalars, and two
exchanges of the banks cancel. The second claim fits because the first length did. -/
theorem resendingAPatternIsIdempotent : Obligations.ResendingAPatternIsIdempotent := by
  intro s a b c e₁ e₂ rest h hk hcarries₁ hcarries₂ hb hc hpos hcap hdraw₁ hdraw₂ he
  obtain ⟨t₁, ht₁, hstore₁, hcount₁, ha₁, hb₁, hc₁, hdec₁, -, -, hev₁⟩ :=
    acceptedPatternIsCommitted s a b c e₁ (e₂ ++ rest) h hk hcarries₁ hb hc hpos hcap hdraw₁ he
  have h₁ : StateInv t₁ := inv_run h ht₁
  have hcap₁ : a.length ≤ t₁.params.cap := hcount₁ ▸ h₁.store_bounds.2.1
  obtain ⟨t₂, ht₂, hstore₂, -, ha₂, hb₂, hc₂, -⟩ :=
    acceptedPatternIsCommitted t₁ a b c e₂ rest h₁ (by rw [hdec₁]; rfl) hcarries₂ hb hc hpos hcap₁ hdraw₂ hev₁
  refine ⟨t₁, t₂, ht₁, ht₂, ?_, ?_⟩
  · simp only [currentPattern, ha₁, hb₁, hc₁, ha₂, hb₂, hc₂, hstore₂, hstore₁]
  · rw [hstore₂, hstore₁]
    exact shadowBank_shadow s.store.liveSel

end Sys2Proof.Machine
end

section
/-! PROOFS. The statements of 44_consumer.md: what a tick reads and writes, that the consumer sees the read view alone,
and that playback goes on while bytes arrive, until a pattern commits. -/

namespace Sys2Proof.Machine

/-! ### One tick (R139, R140) -/

theorem readTriple_eq_ok_iff_sample {s : State} {o : TickOut} :
    readTriple s = .ok o ↔
      (∀ ch, memRead s s.store.liveSel ch s.store.playIndex.toNat = .ok (o.sample ch)) ∧
        s.store.amplitude = o.amplitude := by
  rw [readTriple_eq_ok]
  constructor
  · rintro ⟨ha, hb, hc, hamp⟩
    refine ⟨fun ch => ?_, hamp⟩
    cases ch with
    | a => exact ha
    | b => exact hb
    | c => exact hc
  · rintro ⟨hread, hamp⟩
    exact ⟨hread .a, hread .b, hread .c, hamp⟩

/-- Settles O22: the three reads are the triple of the tick, and in a state of the invariant `play_index` is the index
of a written sample. -/
theorem tickReadsAndAdvances : Obligations.TickReadsAndAdvances := by
  refine ⟨fun s h => ?_, fun s a b c hl ha hb hc => ?_⟩
  · obtain ⟨-, -, hplay⟩ := h.store_bounds
    exact ⟨h.legal, fun ch => h.liveWritten ch _ hplay⟩
  · exact ⟨_, execTick_next.2 ⟨hl, _, readTriple_eq_ok.2 ⟨ha, hb, hc, rfl⟩, rfl⟩, rfl, rfl, rfl, rfl⟩

/-- Settles O23: a legal state has `play_index` below `sample_count`, so the advance is `+ 1` or the return to 0. -/
theorem tickAdvanceStaysInRange : Obligations.TickAdvanceStaysInRange := by
  intro s t hx
  obtain ⟨hl, o, -, rfl⟩ := execTick_next.1 hx
  obtain ⟨-, -, hplay⟩ := (legal_iff.1 hl).2
  have hadv := advance_toNat hplay
  refine ⟨?_, fun hlt => hadv.trans (if_pos hlt), fun heq => BitVec.eq_of_toNat_eq (hadv.trans (if_neg heq.not_lt))⟩
  simp only [State.withStore_store, hadv]
  split <;> omega

/-! ### The consumer and the read view (R135) -/

theorem getElem?_channelSamples {s : State} {i : Nat} (hi : i < s.store.sampleCount.toNat) (ch : Channel) :
    (channelSamples s ch)[i]? = some (liveSample s ch i) := by
  simp [channelSamples, hi]

theorem channelSamples_eq_of_currentPattern_eq {s₁ s₂ : State} (h : currentPattern s₁ = currentPattern s₂)
    (ch : Channel) : channelSamples s₁ ch = channelSamples s₂ ch := by
  cases ch with
  | a => exact congrArg ReadView.samplesA h
  | b => exact congrArg ReadView.samplesB h
  | c => exact congrArg ReadView.samplesC h

theorem liveSample_eq_of_currentPattern_eq {s₁ s₂ : State} (h : currentPattern s₁ = currentPattern s₂) {i : Nat}
    (hi : i < s₁.store.sampleCount.toNat) (ch : Channel) : liveSample s₁ ch i = liveSample s₂ ch i := by
  have hcount : s₁.store.sampleCount = s₂.store.sampleCount := congrArg ReadView.sampleCount h
  have hsamples := congrArg (·[i]?) (channelSamples_eq_of_currentPattern_eq h ch)
  rw [getElem?_channelSamples hi, getElem?_channelSamples (hcount ▸ hi)] at hsamples
  exact Option.some.inj hsamples

theorem readTriple_of_currentPattern_eq {s₁ s₂ : State} (h : currentPattern s₁ = currentPattern s₂)
    (hl : s₁.legal = true) {o : TickOut} (ho : readTriple s₁ = .ok o) : readTriple s₂ = .ok o := by
  obtain ⟨-, -, hplay⟩ := (legal_iff.1 hl).2
  have hamp : s₁.store.amplitude = s₂.store.amplitude := congrArg ReadView.amplitude h
  have hidx : s₁.store.playIndex = s₂.store.playIndex := congrArg ReadView.playIndex h
  rw [readTriple_eq_ok_iff_sample] at ho ⊢
  obtain ⟨hread, hout⟩ := ho
  refine ⟨fun ch => ?_, hamp ▸ hout⟩
  rw [← liveSample_eq_some, ← hidx, ← liveSample_eq_of_currentPattern_eq h hplay, liveSample_eq_some]
  exact hread ch

/-- Of the read view a tick changes `play_index` alone, by its own count. -/
theorem currentPattern_execTick {s t : State} (hx : execTick s = .next t) :
    currentPattern t =
      { currentPattern s with
        playIndex := advance (currentPattern s).playIndex (currentPattern s).sampleCount } := by
  obtain ⟨-, o, -, rfl⟩ := execTick_next.1 hx
  rfl

/-- Settles O27: the triple, the advance and the samples left are all read from the view. -/
theorem tickSeesOnlyTheReadView : Obligations.TickSeesOnlyTheReadView := by
  intro s₁ s₂ t₁ hl₁ hl₂ hview hx₁
  obtain ⟨-, o, ho, ht₁⟩ := execTick_next.1 hx₁
  have hx₂ := execTick_next.2 ⟨hl₂, o, readTriple_of_currentPattern_eq hview hl₁ ho, rfl⟩
  refine ⟨_, hx₂, by rw [ht₁]; rfl, ?_⟩
  rw [currentPattern_execTick hx₁, currentPattern_execTick hx₂, hview]

/-! ### Several ticks (R142) -/

theorem advanceBy_toNat {p n : Word} (hn : 0 < n.toNat) (k : Nat) :
    (advanceBy p n k).toNat = (p.toNat + k) % n.toNat := by
  have hlt := Nat.mod_lt (p.toNat + k) hn
  rw [advanceBy, BitVec.toNat_ofNat, Nat.mod_eq_of_lt (hlt.trans n.isLt)]

theorem advanceBy_advanceBy {p n : Word} (hn : 0 < n.toNat) (j k : Nat) :
    advanceBy (advanceBy p n j) n k = advanceBy p n (j + k) := by
  rw [advanceBy, advanceBy_toNat hn, Nat.mod_add_mod, Nat.add_assoc, advanceBy]

/-- Ticks alone complete and change the index alone. -/
theorem run_ticks {k : Nat} {rest : List Event} {s : State} (h : StateInv s)
    (he : s.events = List.replicate k .tick ++ rest) :
    ∃ t, run k s = .next t ∧ t.events = rest ∧ t.store = s.store.afterTicks k ∧ t.dec = s.dec ∧ t.mem = s.mem ∧
      t.params = s.params := by
  induction k generalizing s with
  | zero =>
    obtain ⟨-, -, hplay⟩ := h.store_bounds
    exact ⟨s, rfl, he, (PatternStore.afterTicks_zero hplay).symm, rfl, rfl, rfl⟩
  | succ k ih =>
    obtain ⟨o, hx, -⟩ := step_tick h he
    obtain ⟨t, ht, hev, hstore, hrest⟩ := ih (inv_step h hx) rfl
    exact ⟨t, (run_succ hx).trans ht, hev, hstore.trans (afterTicks_ticked h o _ k), hrest⟩

/-- Settles O25: `k` ticks have moved the index when the last one reads its triple and moves it once more. -/
theorem ticksPlayThePattern : Obligations.TicksPlayThePattern := by
  intro s k rest h he
  obtain ⟨hpos, -, hplay⟩ := h.store_bounds
  rw [List.replicate_succ', List.append_assoc] at he
  obtain ⟨u, hu, hev, hstore, hdec, hmem, hparams⟩ := run_ticks h he
  obtain ⟨o, hx, ho⟩ := step_tick (inv_run h hu) hev
  obtain ⟨hread, hamp⟩ := readTriple_eq_ok_iff_sample.1 ho
  have hrun : run (k + 1) s = .next (ticked u o rest) := (run_add hu).trans (run_succ hx)
  refine ⟨_, o, hrun, rfl, by rw [← hamp, hstore]; rfl, fun ch => ?_, ?_, hdec, hmem⟩
  · rw [← advanceBy_toNat hpos, ← memRead_congr hmem hparams, ← hread ch, hstore]
    rfl
  · simp [ticked, hstore, PatternStore.afterTicks, advance_advanceBy hplay]

/-! ### A byte step and the live bank (R42, R124, R143) -/

theorem ByteEffect.memRead_live {s t : State} {i : Instr} (h : ByteEffect s i t) (ch : Channel) (j : Nat) :
    memRead t s.store.liveSel ch j = memRead s s.store.liveSel ch j := by
  cases h with
  | stored _ _ _ _ _ hi => exact memRead_live_of_shadow_write hi rfl rfl
  | _ => rfl

/-- Settles O41: the one byte step that writes memory writes the shadow bank. -/
theorem liveBankNeverWrittenByDecoder : Obligations.LiveBankNeverWrittenByDecoder :=
  fun _ _ _ hi hx => (exec_byteEffect hi hx).memRead_live

/-! ### Playback while bytes arrive (R116, R142) -/

/-- From `s` to `t` playback has gone on with `k` ticks: the bank, the count and the live samples are the same, and the
index has moved by the ticks. The frequency and the amplitude may have been set. -/
def PlaybackKept (k : Nat) (s t : State) : Prop :=
  t.store.liveSel = s.store.liveSel ∧ t.store.sampleCount = s.store.sampleCount ∧
    t.store.playIndex = advanceBy s.store.playIndex s.store.sampleCount k ∧
      ∀ ch i, liveSample t ch i = liveSample s ch i

/-- The report of a pattern message that ended without error: the step committed (R110). -/
def patternAccepted : DoneEvent := { kind := .pattern, flags := Flag.none }

section PlaybackKept

variable {s t u : State} {j k : Nat}

theorem PlaybackKept.of_same_index (h : StateInv s) (hlive : t.store.liveSel = s.store.liveSel)
    (hcount : t.store.sampleCount = s.store.sampleCount) (hplay : t.store.playIndex = s.store.playIndex)
    (hread : ∀ ch i, memRead t s.store.liveSel ch i = memRead s s.store.liveSel ch i) : PlaybackKept 0 s t := by
  obtain ⟨-, -, hbound⟩ := h.store_bounds
  refine ⟨hlive, hcount, hplay.trans (advanceBy_zero hbound).symm, fun ch i => ?_⟩
  rw [liveSample, hlive, hread, liveSample]

theorem PlaybackKept.trans (h : StateInv s) (hst : PlaybackKept j s t) (htu : PlaybackKept k t u) :
    PlaybackKept (j + k) s u := by
  obtain ⟨hlive, hcount, hplay, hsample⟩ := hst
  obtain ⟨hlive', hcount', hplay', hsample'⟩ := htu
  refine ⟨hlive'.trans hlive, hcount'.trans hcount, ?_, fun ch i => (hsample' ch i).trans (hsample ch i)⟩
  rw [hplay', hcount, hplay, advanceBy_advanceBy h.store_bounds.1]

theorem playbackKept_ticked (o : TickOut) (r : List Event) : PlaybackKept 1 s (ticked s o r) :=
  ⟨rfl, rfl, rfl, fun _ _ => rfl⟩

/-- A byte step that does not report an accepted pattern is no commit, and only the commit writes what is played. -/
theorem ByteEffect.playbackKept {i : Instr} (h : StateInv s) (hx : ByteEffect s i t)
    (hdone : t.done ≠ some patternAccepted) : PlaybackKept 0 s t := by
  have hread := hx.memRead_live
  cases hx with
  | committed hk => exact absurd (by rw [ended, hk]; rfl) hdone
  | _ => exact .of_same_index h rfl rfl rfl hread

/-- One event, a byte or a tick. -/
theorem step_playbackKept {e : Event} {r : List Event} (h : StateInv s) (hr : noReset [e] = true)
    (he : s.events = e :: r) (hx : step s = .next t)
    (hdone : t.done ≠ some patternAccepted) : PlaybackKept (tickCount [e]) s t := by
  cases e with
  | byte b deny =>
    obtain ⟨i, t', hd, hi, hx'⟩ := byte_completes (s := s.withEvents r) h.legal b deny
    obtain rfl : t' = t := Host.Outcome.next.inj ((step_byte he hd hx').symm.trans hx)
    exact ByteEffect.playbackKept (s := s.withEvents r) (inv_of_withEvents.2 h) (exec_byteEffect hi hx') hdone
  | tick =>
    obtain ⟨o, hx', -⟩ := step_tick h he
    obtain rfl : ticked s o r = t := Host.Outcome.next.inj (hx'.symm.trans hx)
    exact playbackKept_ticked o r
  | reset => cases hr

end PlaybackKept

theorem tickCount_append (e f : List Event) : tickCount (e ++ f) = tickCount e + tickCount f := by
  induction e with
  | nil => simp [tickCount]
  | cons x e ih => cases x <;> simp [tickCount, ih, Nat.add_right_comm]

/-- By induction on the events: each step completes, keeps the invariant and lets playback go on. -/
theorem run_playbackKept {e rest : List Event} {s : State} (h : StateInv s) (hr : noReset e = true)
    (he : s.events = e ++ rest)
    (hdone : ∀ k t, 1 ≤ k → k ≤ e.length → run k s = .next t → t.done ≠ some patternAccepted) :
    ∃ t, run e.length s = .next t ∧ t.events = rest ∧ PlaybackKept (tickCount e) s t := by
  induction e generalizing s with
  | nil => exact ⟨s, rfl, he, .of_same_index h rfl rfl rfl fun _ _ => rfl⟩
  | cons x e ih =>
    rw [← List.singleton_append, noReset_append, Bool.and_eq_true] at hr
    obtain ⟨hrx, hre⟩ := hr
    obtain ⟨t, hx, hev, -⟩ := stepAlwaysCompletes s x (e ++ rest) h he
    have hst := step_playbackKept h hrx he hx (hdone 1 t le_rfl (by simp) (run_succ hx))
    obtain ⟨u, hu, hevu, htu⟩ := ih (inv_step h hx) hre hev fun k v h1 hk hv =>
      hdone (k + 1) v (by omega) (by simpa using hk) ((run_succ hx).trans hv)
    refine ⟨u, (run_succ hx).trans hu, hevu, ?_⟩
    rw [← List.singleton_append, tickCount_append]
    exact hst.trans h htu

/-- Settles O54: no event of the run is a reset and no step commits, so the run keeps playback, sample by sample. -/
theorem playbackUndisturbedUntilCommit : Obligations.PlaybackUndisturbedUntilCommit := by
  intro s e rest h hr he hdone
  obtain ⟨t, ht, hev, hlive, hcount, hplay, hsample⟩ := run_playbackKept h hr he hdone
  exact ⟨t, ht, hev, hlive, hcount, hplay, fun ch i _ => hsample ch i⟩

end Sys2Proof.Machine
end

section
/-! PROOFS. The statements of 60_exceptions.md: the flags an ended message can report, that a rejected message leaves the
store and the memory alone, and what the decoder reads. -/

namespace Sys2Proof.Machine

/-! ### The report of an ended message (R145, R147, R150) -/

/-- A report is of a message of a known kind without error, or of a rejected message: an unassigned type byte, or a
pattern message in drain or with a wrong delimiter. A rejected message ends with the store and the memory it found. -/
def ReportPossible (s t : State) (d : DoneEvent) : Prop :=
  (d.flags = Flag.none ∧ d.kind ≠ .none) ∨
    (t.store = s.store ∧ t.mem = s.mem ∧ t.dec = DecoderState.initial) ∧
      ((d.flags = Flag.unknownType ∧ d.kind = .none) ∨
        d.flags ∈ [Flag.allocationFailure, 0b100#3, 0b110#3] ∧ d.kind = .pattern)

theorem ByteEffect.reportPossible {s t : State} {i : Instr} {d : DoneEvent} (h : ByteEffect s i t)
    (hdone : t.done = some d) : ReportPossible s t d := by
  cases h with
  | moved | stored => cases hdone
  | unknown hk =>
    cases hdone
    exact .inr ⟨⟨rfl, rfl, rfl⟩, .inl ⟨rfl, hk⟩⟩
  | badDelimiter hk he =>
    cases hdone
    refine .inr ⟨⟨rfl, rfl, rfl⟩, .inr ⟨?_, hk⟩⟩
    rcases raise_badDelimiter_cases he with hf | hf <;> simp [hf]
  | drained hk =>
    cases hdone
    exact .inr ⟨⟨rfl, rfl, rfl⟩, .inr ⟨List.mem_cons_self, hk⟩⟩
  | committed hk | frequencySet hk | amplitudeSet hk =>
    cases hdone
    exact .inl ⟨rfl, by simp [hk]⟩

/-- A tick and a reset report nothing (R30). -/
theorem exec_reportPossible {s t : State} {i : Instr} {d : DoneEvent} (hx : exec i s = .next t)
    (hdone : t.done = some d) : ReportPossible s t d := by
  rcases exec_next_cases hx with h | ⟨-, o, rfl⟩ | ⟨-, rfl⟩
  · exact h.reportPossible hdone
  · cases hdone
  · cases hdone

/-- Settles O43: of the possible reports, the unassigned type byte alone is of no kind and alone has its flag. -/
theorem endedMessageFlags : Obligations.EndedMessageFlags := by
  intro s t i d hx hdone
  obtain ⟨kind, flags⟩ := d
  rcases exec_reportPossible hx hdone with ⟨rfl, hk⟩ | ⟨-, ⟨rfl, rfl⟩ | ⟨hf, rfl⟩⟩
  · exact ⟨List.mem_cons_self, fun h => absurd h (show Flag.none ≠ 0b001#3 by decide), fun h => absurd h hk⟩
  · decide
  · simp only [List.mem_cons, List.not_mem_nil, or_false] at hf
    rcases hf with rfl | rfl | rfl <;> decide

/-- Settles O44: a report with a flag is of a rejected message. -/
theorem rejectedMessageLeavesStore : Obligations.RejectedMessageLeavesStore := by
  intro s t i d hx hdone hf
  rcases exec_reportPossible hx hdone with ⟨hnone, -⟩ | ⟨hsame, -⟩
  · exact absurd hnone hf
  · exact hsame

/-! ### What the decoder reads (R155) -/

/-- A byte step that completes was taken at the position its byte is read at (R85, R111). -/
theorem position_of_exec {s t : State} {i : Instr} (hi : i.onStream = true) (hx : exec i s = .next t) :
    s.legal = true ∧ i.wellFormed = true ∧ (s.dec.messageKind, s.dec.fieldKind) = i.readAt := by
  have hl : s.legal = true := legal_of_exec_next (ne_reset_of_onStream hi) hx
  obtain ⟨hpos, hill⟩ := otherPositionsRefused s i hl hi
  have hwf : i.wellFormed = true := by
    by_contra h
    cases hx.symm.trans (hill (Bool.eq_false_iff.2 h))
  refine ⟨hl, hwf, ?_⟩
  by_contra h
  cases hx.symm.trans (hpos hwf h)

/-- The Decoder State `d` and the capacity `cap` determine what the instruction does to the decoder and what it reports,
in every legal state; the memory `m` and the store `p` it leaves may differ from state to state. -/
inductive Determined (cap : Nat) (d : DecoderState) (i : Instr) : Prop
  | moves (d' : DecoderState)
    (h : ∀ s, s.legal = true → s.dec = d → s.params.cap = cap → ∃ m, exec i s = .next (moveTo d' (s.withMem m)))
  | ends (e : Bits3)
    (h : ∀ s, s.legal = true → s.dec = d → s.params.cap = cap → ∃ p, exec i s = .next (ended s e p))

section Determined

variable {cap : Nat} {d : DecoderState}

/-- An instruction that sets the position in Idle, as the three type bytes do (R86 to R88). -/
theorem determined_of_setPos {i : Instr} {mk : MessageKind} {fk : FieldKind}
    (hx : ∀ {s}, s.legal = true → s.dec.messageKind = .none →
      exec i s = .next (setPos mk fk .all 0#16 (clearOutputs s)))
    (hk : d.messageKind = .none) : Determined cap d i := by
  refine .moves { d with messageKind := mk, fieldKind := fk, activeChannel := .all, byteIndex := 0#16 }
    fun s hl hd _ => ⟨s.mem, ?_⟩
  subst hd
  exact hx hl hk

theorem determined_unk {u : Byte} (hu : isUnassignedType u = true) (hk : d.messageKind = .none) :
    Determined cap d (.unk u) :=
  .ends Flag.unknownType fun _ hl hd _ => ⟨_, exec_unk hl (hd ▸ hk) hu⟩

variable (hs : Shape cap d)
include hs

theorem determined_freq_payload (b : Byte) (hk : d.messageKind = .frequency) :
    Determined cap d (.freq (.payload b)) := by
  rcases hs.freq_cases hk with rfl | ⟨lo, rfl⟩
  · exact .moves (freqHalf b) fun s hl hd _ => ⟨s.mem, exec_freq_payload_head hl b hd⟩
  · exact .ends Flag.none fun _ hl hd _ => ⟨_, exec_freq_payload_half hl b hd⟩

theorem determined_amp_payload (b : Byte) (hk : d.messageKind = .amplitude) :
    Determined cap d (.amp (.payload b)) := by
  rcases hs.amp_cases hk with rfl | ⟨lo, rfl⟩
  · exact .moves (ampHalf b) fun s hl hd _ => ⟨s.mem, exec_amp_payload_head hl b hd⟩
  · exact .ends Flag.none fun _ hl hd _ => ⟨_, exec_amp_payload_half hl b hd⟩

/-- The claim reads the capacity, the length and the draw (R103). -/
theorem determined_length (b : Byte) (deny : Bits3) (hf : d.fieldKind = .length) :
    Determined cap d (.pat (.length b deny)) := by
  rcases hs.length_cases hf with rfl | ⟨lo, rfl⟩
  · exact .moves (lengthHalf b) fun s hl hd _ => ⟨s.mem, exec_length_head hl b deny hd⟩
  · refine .moves (atSample (claimFlags cap (joinBytes b lo).toNat deny) .a 0#16 (joinBytes b lo))
      fun s hl hd hcap => ⟨s.mem, ?_⟩
    rw [exec_length_half hl b deny hd, hcap]
    rfl

theorem determined_data (b : Byte) (hf : d.fieldKind = .data) : Determined cap d (.pat (.data b)) := by
  obtain ⟨err, ch, i, n, rfl, -⟩ := hs.data_cases hf
  exact .moves (atSample err ch (i + 1#16) n) fun _ hl hd _ => ⟨_, exec_sample hl b hd⟩

theorem determined_delimiter (b : Byte) (hf : d.fieldKind = .delimiter) : Determined cap d (.pat (.delimiter b)) := by
  obtain ⟨err, ch, n, rfl, -⟩ := hs.delimiter_cases hf
  by_cases hb : b = Config.delim
  · subst hb
    cases hch : nextChannel ch with
    | some ch' => exact .moves (atSample err ch' 0#16 n) fun s hl hd _ => ⟨s.mem, exec_good_delimiter hl hd hch⟩
    | none =>
      obtain rfl : ch = .c := by cases ch <;> simp [nextChannel] at hch ⊢
      exact .ends err fun _ hl hd _ => ⟨_, exec_last_delimiter hl hd⟩
  · exact .ends (err ||| Flag.badDelimiter) fun _ hl hd _ => ⟨_, exec_bad_delimiter hl b hd hb⟩

end Determined

theorem determined_of_exec {s t : State} {i : Instr} (hi : i.onStream = true) (hx : exec i s = .next t) :
    Determined s.params.cap s.dec i := by
  obtain ⟨hl, hwf, hpos⟩ := position_of_exec hi hx
  have hs : Shape s.params.cap s.dec := (legal_iff.1 hl).1
  obtain ⟨hk, hf⟩ := Prod.mk.inj hpos
  cases i with
  | pat p =>
    cases p with
    | typeByte => exact determined_of_setPos exec_pat_typeByte hk
    | length b deny => exact determined_length hs b deny hf
    | data b => exact determined_data hs b hf
    | delimiter b => exact determined_delimiter hs b hf
  | freq p =>
    cases p with
    | typeByte => exact determined_of_setPos exec_freq_typeByte hk
    | payload b => exact determined_freq_payload hs b hk
  | amp p =>
    cases p with
    | typeByte => exact determined_of_setPos exec_amp_typeByte hk
    | payload b => exact determined_amp_payload hs b hk
  | unk u => exact determined_unk hwf hk
  | tick => cases hi
  | reset => cases hi

/-- Settles O47: the Decoder State and the capacity of the first state determine the step in the second. -/
theorem decoderStateAndReportIndependentOfStore : Obligations.DecoderStateAndReportIndependentOfStore := by
  intro s₁ s₂ t₁ i hi hl₁ hl₂ hdec hcap hx
  cases determined_of_exec hi hx with
  | moves d' h =>
    obtain ⟨_, h₁⟩ := h s₁ hl₁ rfl rfl
    obtain ⟨_, h₂⟩ := h s₂ hl₂ hdec.symm hcap.symm
    cases hx.symm.trans h₁
    exact ⟨_, h₂, rfl, rfl, fun hdone => absurd rfl hdone⟩
  | ends e h =>
    obtain ⟨_, h₁⟩ := h s₁ hl₁ rfl rfl
    obtain ⟨_, h₂⟩ := h s₂ hl₂ hdec.symm hcap.symm
    cases hx.symm.trans h₁
    exact ⟨_, h₂, rfl, by rw [ended, ended, hdec], fun _ => rfl⟩

end Sys2Proof.Machine
end

section
/-! PROOFS. The statements of 70_reset_and_hazards.md: `RESET` from every state and against the events that coincide with
it, the step that is not taken, and the states that have no meaning. -/

namespace Sys2Proof.Machine

/-! ### Reset (R170 to R173) -/

/-- Settles O28: the registers are those of `resetStep`, and `memRead_afterReset` says what a read returns after it. -/
theorem resetFromEveryState : Obligations.ResetFromEveryState :=
  fun s => ⟨resetStep s, execReset_next.2 rfl, rfl, rfl, rfl, rfl, rfl, rfl, rfl,
    memRead_afterReset (s := s) (t := resetStep s) rfl rfl⟩

/-- Settles O29: a reset event is fetched as `RESET`, whatever it carries. -/
theorem resetWinsOverCoincidentEvents : Obligations.ResetWinsOverCoincidentEvents :=
  fun _ _ _ _ he => step_cons he rfl

/-! ### Steps without a meaning (R187, R189) -/

/-- Settles O35: with no first event to take, `step` answers its own refusal. -/
theorem noEventNoStep : Obligations.NoEventNoStep := by
  intro s he
  rw [step, he]

theorem whenLegal_of_illegal {s : State} (h : s.legal = false) (k : State → Result) :
    whenLegal s k = .refused .illegalState := by
  simp [whenLegal, h]

/-- Settles O37: every instruction but `RESET` is guarded by the tables, and the guard refuses the state. -/
theorem illegalStateRefused : Obligations.IllegalStateRefused := by
  intro s i hl hi
  cases i with
  | pat p => rw [exec, execPat, whenLegal_of_illegal hl]
  | freq p => rw [exec, execFreq, whenLegal_of_illegal hl]
  | amp p => rw [exec, execAmp, whenLegal_of_illegal hl]
  | unk t => rw [exec, execUnk, whenLegal_of_illegal hl]
  | tick => rw [exec, execTick, whenLegal_of_illegal hl]
  | reset => exact absurd rfl hi

end Sys2Proof.Machine
end

section
/-! PROOFS. The statements that stand between the files of the spec: the decoder on encoded instructions and on written
out table words, and the tick that would read a byte never written. -/

namespace Sys2Proof

/-! ### One instruction of the stream (R62 to R65) -/

theorem decode_of_decodeType {fk : FieldKind} {deny : Bits3} {t : Byte} {i : Instr} {rest : List Byte}
    (h : decodeType t = .ok i) : decode .none fk deny (t :: rest) = .ok (i, rest) := by
  rw [decode_idle, h]
  rfl

/-- Settles O4, by the byte of the message: a type byte is read in Idle, where the table selects its row, and at every
other position the decoder takes any byte as the operand. -/
theorem decodeUndoesEncode : Obligations.DecodeUndoesEncode := by
  intro i rest hwf hstream
  cases i with
  | pat p =>
    cases p with
    | typeByte => exact decode_of_decodeType decodeType_pattern
    | length b deny => rfl
    | data b => rfl
    | delimiter b => rfl
  | freq p =>
    cases p with
    | typeByte => exact decode_of_decodeType decodeType_frequency
    | payload b => rfl
  | amp p =>
    cases p with
    | typeByte => exact decode_of_decodeType decodeType_amplitude
    | payload b => rfl
  | unk t => exact decode_of_decodeType (decodeType_unassigned hwf)
  | tick => cases hstream
  | reset => cases hstream

/-! ### Table words (R74) -/

/-- A table word is decoded by its first byte, as a type byte. -/
theorem decodeTableWord_of_decodeType {nbits w : Nat} {t : Byte} {rest : List Byte} {i : Instr}
    (hw : wordBytes nbits w = t :: rest) (ht : decodeType t = .ok i) : decodeTableWord nbits w = some i := by
  rw [decodeTableWord, hw, decode_of_decodeType ht]

/-- Settles O3: each word's first byte selects its row of the type-byte map, and the bytes `02 10 27` are the encoding
of `FREQ 0x2710`. -/
theorem writtenOutWordsDecode : Obligations.WrittenOutWordsDecode :=
  ⟨decodeTableWord_of_decodeType rfl decodeType_pattern,
    decodeTableWord_of_decodeType rfl decodeType_frequency,
    decodeTableWord_of_decodeType rfl decodeType_amplitude,
    decodeTableWord_of_decodeType rfl (decodeType_unassigned (by decide)),
    decodeTableWord_of_decodeType rfl (decodeType_unassigned (by decide)),
    decodeTableWord_of_decodeType rfl (decodeType_unassigned (by decide)),
    decodeTableWord_of_decodeType rfl (decodeType_unassigned (by decide)),
    parseUndoesEncodeMessage (.freq 0x2710#16) [] rfl⟩

end Sys2Proof

namespace Sys2Proof.Machine

/-! ### A tick that faults (U7, log 6) -/

/-- A read in range faults only on a byte never written. -/
theorem memRead_error_of_lt_cap {s : State} {k : Bank} {ch : Channel} {i : Nat} {f : Fault} (hi : i < s.params.cap)
    (h : memRead s k ch i = .error f) : f = .unwrittenSample := by
  rw [memRead, if_pos hi] at h
  split at h
  · cases h
  · exact (Except.error.inj h).symm

/-- The fault of the triple is the fault of one of its three reads. -/
theorem exists_memRead_of_readTriple_error {s : State} {f : Fault} (h : readTriple s = .error f) :
    ∃ ch, memRead s s.store.liveSel ch s.store.playIndex.toNat = .error f := by
  unfold readTriple at h
  split at h
  · cases h
  · rename_i ha
    cases h
    exact ⟨.a, ha⟩
  · rename_i hb _
    cases h
    exact ⟨.b, hb⟩
  · rename_i hc _ _
    cases h
    exact ⟨.c, hc⟩

/-- With a byte never written among the three, the triple has no value but the fault. -/
theorem readTriple_of_not_written {s : State} {ch : Channel} (hi : s.store.playIndex.toNat < s.params.cap)
    (hw : ¬written s s.store.liveSel ch s.store.playIndex.toNat) : readTriple s = .error .unwrittenSample := by
  cases hr : readTriple s with
  | ok o => exact absurd ⟨_, (readTriple_eq_ok_iff_sample.1 hr).1 ch⟩ hw
  | error f =>
    obtain ⟨ch', hread⟩ := exists_memRead_of_readTriple_error hr
    rw [memRead_error_of_lt_cap hi hread]

theorem execTick_fault {s : State} {f : Fault} (hl : s.legal = true) (hr : readTriple s = .error f) :
    execTick s = .fault f := by
  have hclear : readTriple (clearOutputs s) = .error f := hr
  rw [execTick, whenLegal_of_legal hl, tickStep, hclear]

/-- Settles O24: in a legal state `play_index` is below `CAP`, so the read that fails does so as unwritten. -/
theorem tickOnUnwrittenSampleFaults : Obligations.TickOnUnwrittenSampleFaults := by
  intro s ch hl hw
  obtain ⟨-, -, hcap, hplay⟩ := legal_iff.1 hl
  exact execTick_fault hl (readTriple_of_not_written (hplay.trans_le hcap) hw)

end Sys2Proof.Machine
end
